-- ==== Sys2Proof/Word.lean ====
section
/-! DEFINITION. The word types of the Xenon bus router (R10, R12): bytes, 64-bit bus addresses and
64-bit bus data. Everything the spec computes over naturals (R13) is computed over `Nat`. -/

namespace Sys2Proof

/-- One byte of a configuration space, of the register file, of main memory or of a command (R14, R90). -/
abbrev Byte := BitVec 8

/-- A bus address or configuration address, `u64` (R10, R90). -/
abbrev Addr := BitVec 64

/-- A bus data value, `u64`: eight byte lanes (R10, R90). -/
abbrev Data := BitVec 64

end Sys2Proof
end

