-- ==== Sys2Proof/Syntax.lean ====
section
/-! DEFINITION. The commands of the block (spec/30_encoding.md): one constructor of `Instr` for each row
of the opcode map R96, and the two kinds of transaction that carry them (R90). -/

namespace Sys2Proof

/-- The transfer sizes, byteCount ∈ {1, 2, 4, 8} (R67, R93). No other size can be written down. -/
inductive Size where
  | one | two | four | eight
deriving DecidableEq, Repr

/-- The presentation signals (R231). -/
inductive Signal where
  | vsync | fullscreen | quit
deriving DecidableEq, Repr

/-- The seven commands (R96), with the operands their port carries (R90, R94, R95). -/
inductive Instr where
  /-- MRD: memory read (R111). -/
  | mrd (n : Size) (addr : Addr)
  /-- MWR: memory write (R112). -/
  | mwr (n : Size) (addr : Addr) (wdata : Data)
  /-- CRD: configuration read (R113). -/
  | crd (n : Size) (addr : Addr)
  /-- CWR: configuration write (R114). -/
  | cwr (n : Size) (addr : Addr) (wdata : Data)
  /-- SIG_VSYNC: request to toggle sync-to-display-refresh (R233). -/
  | sigVsync
  /-- SIG_FULLSCREEN: request to toggle fullscreen (R234). -/
  | sigFullscreen
  /-- SIG_QUIT: request to terminate (R235). -/
  | sigQuit
deriving DecidableEq, Repr

/-- One transaction on a port (R90): the bus port carries the 3-tuple (cmd, addr, wdata), the signal
port carries cmd alone. -/
inductive Transaction where
  | bus (cmd : Byte) (addr : Addr) (wdata : Data)
  | signal (cmd : Byte)
deriving DecidableEq, Repr

end Sys2Proof
end

