-- ==== Sys2Proof/Config.lean ====
section
/-! DEFINITION. The configuration of the block (R10, R20): what is fixed at construction and never
changes. Every value the spec marks OPEN is a field, and so is every draw (a value under no law); the two
values the spec decides are fields with that default (R10, R28).
The configuration is a parameter of the operations, never a field of the state (R20). The block the
model speaks of is `Config.block` of Sys2Proof/WellFormed.lean. -/

namespace Sys2Proof

/-- A PCI function (R18). -/
abbrev FnId := Nat

/-- An Address Range, base and size both `u64` (R17). -/
structure AddrRange where
  base : BitVec 64
  size : BitVec 64
deriving DecidableEq, Repr, Inhabited

/-- A flat registration `(base, size, device)` of `P_FLAT` (R116). -/
structure FlatReg where
  range : AddrRange
  dev : Nat
deriving DecidableEq, Repr, Inhabited

/-- An opaque device (R18): a PCI function other than the display controller, or a flat device. -/
inductive Device where
  | function (f : FnId)
  | flat (d : Nat)
deriving DecidableEq, Repr, Inhabited

/-- The four bytes of one pixel, lowest address first: B, G, R, A in the source (R228), the
presentation format's order after `P_REPACK` (R227). -/
structure Pixel where
  b0 : Byte
  b1 : Byte
  b2 : Byte
  b3 : Byte
deriving DecidableEq, Repr, Inhabited

/-- The register-file size the spec decides: 2^20 bytes, "~1 MiB" (R10, R28, D15). -/
def Config.decidedRfSize : Nat := 2 ^ 20

/-- The register scale the spec decides: index i stands at byte offset i × 4 (R10, R28, D16). -/
def Config.decidedRfScale : Nat := 4

/-- The implementation parameters of R10, and below them the draws. -/
structure Config where
  /-- `P_CFG_BASE`, `P_CFG_SIZE`: the PCI configuration window (R71, D8). -/
  cfgWindow : AddrRange
  /-- `P_CFG_ROUTE`: the total decode of a configuration address to a function (R62, D9). -/
  cfgRoute : Addr → Option FnId
  /-- `P_BRIDGES`: the bridges in registration order, each its functions in enumeration order (R140). -/
  bridges : List (List FnId)
  /-- `P_FLAT`: the flat registrations (R116). -/
  flat : List FlatReg
  /-- `P_DC`: the one function that is the display controller (D25). -/
  dc : FnId
  /-- `P_DUMP[f]`: the 256-byte reset image of f's configuration space (R27). -/
  dump : FnId → BitVec 8 → Byte
  /-- `P_DEVSIZE[f]`: the claimed-range size of f (R162). -/
  devSize : FnId → Nat
  /-- `P_RF_SIZE`: the register-file size in bytes, a parameter with the decided value as its default
  (R28, D15, 93 P6). -/
  rfSize : Nat := Config.decidedRfSize
  /-- `P_RF_SCALE`: register i stands at byte offset i × scale, a parameter with the decided value as
  its default (R28, D16, 93 P6). -/
  rfScale : Nat := Config.decidedRfScale
  /-- `P_OVERRIDES`: register index ↦ sentinel, as a finite map (R30, R172). -/
  overrides : List (Nat × BitVec 32)
  /-- `P_STRAPS`: the four clock/strap seeds (register index, value) (R29, D19). -/
  straps : Vector (Nat × BitVec 32) 4
  /-- `P_RF_INIT`: the draw that every other register-file byte holds at construction (R29, D20). -/
  rfInit : Nat → Byte
  /-- `P_FB_BASE`, `P_FB_SIZE`: the framebuffer window in main memory (R72, D28). -/
  fbWindow : AddrRange
  /-- `P_W`: the display width in pixels. -/
  width : Nat
  /-- `P_H`: the display height in pixels. -/
  height : Nat
  /-- `P_REPACK`: source pixel bytes to presentation pixel bytes (R227, D30). -/
  repack : Pixel → Pixel
  /-- `P_DISPLAY_ENABLED` (R32, D34). -/
  displayEnabled : Bool
  /-- `P_VSYNC0` (R33, D33). -/
  vsync0 : Bool
  /-- `P_FS0` (R33, D33). -/
  fullscreen0 : Bool
  /-- Draw: what `OpaqueRead(d, a, n)` answers at a draw number (R14, D22, D23). -/
  opaqueRead : Nat → Device → Addr → Size → Data
  /-- Draw: `SurfaceAcquired`, the presentation boundary's answer at a draw number (R221, D34). -/
  surfaceAcquired : Nat → Bool
  /-- Draw: for a frame's draw number and a main-memory address, which of the values that the byte
  held while the frame was read is the one the oracle returns (R79, D31). -/
  tear : Nat → Nat → Nat
  /-- Draw: what main memory holds at an address before anything is known to be written there (R79). -/
  memInit : Nat → Byte
  /-- Draw: what `PL.buf` holds at construction (R35: unspecified, never observable). -/
  bufInit : Nat → Byte

end Sys2Proof
end

