-- ==== Sys2Proof/WellFormed.lean ====
section
/-! DEFINITION. Well-formedness. An instruction needs no check: `Size` has only the four legal sizes, an
address is used whole (R94), so an ill-formed `Instr` cannot be written down. A CONFIGURATION does
(R11): the conditions are the fields of `Config.WellFormed`, and a `Block` cannot be built from a
configuration that fails one (R281 step 1, P15). The configuration E1 of spec/95_test_vectors.md §0
stands here as the witness that a well-formed configuration exists; `Config.block`, the block the model speaks
of, is opaque but for the register-file size and scale, which the spec decides. -/

namespace Sys2Proof

/-- Two ranges share no address (half-open ranges, sums over naturals: R11 (a), R13). -/
def AddrRange.Disjoint (r t : AddrRange) : Prop :=
  r.base.toNat + r.size.toNat ≤ t.base.toNat ∨ t.base.toNat + t.size.toNat ≤ r.base.toNat

/-- The attached PCI functions, in the order in which the bridges try them (R110, R140). -/
def Config.functions (c : Config) : List FnId := c.bridges.flatten

/-- The rows a frame occupies in tiled memory: `32·⌈P_H/32⌉` (R11 (h), R205). -/
def Config.paddedHeight (c : Config) : Nat := 32 * ((c.height + 31) / 32)

/-- The well-formedness conditions on a configuration: R11 (a) to (h), the entry R173 requires, and
three conditions that other places of the spec imply (log entry 17). -/
structure Config.WellFormed (c : Config) : Prop where
  /-- R11 (a): every flat range has size > 0. -/
  flat_size : ∀ r ∈ c.flat, 0 < r.range.size.toNat
  /-- R11 (a): flat ranges are pairwise disjoint. -/
  flat_disjoint : c.flat.Pairwise fun r t => r.range.Disjoint t.range
  /-- R11 (a): no flat range intersects the PCI configuration window. -/
  flat_window : ∀ r ∈ c.flat, r.range.Disjoint c.cfgWindow
  /-- R11 (b): `P_CFG_SIZE` > 0. -/
  window_size : 0 < c.cfgWindow.size.toNat
  /-- R11 (c): `P_CFG_ROUTE` only returns functions that are attached to some bridge. -/
  route_attached : ∀ a f, c.cfgRoute a = some f → f ∈ c.functions
  /-- R11 (d): every PCI function is attached to exactly one bridge (and once). -/
  attached_once : c.functions.Nodup
  /-- R11 (d): `P_DC` is one of them. -/
  dc_attached : c.dc ∈ c.functions
  /-- 90_conflicts.md C6: device sizes are > 0 (log entry 17). -/
  dev_size : ∀ f ∈ c.functions, 0 < c.devSize f
  /-- R11 (e): `P_RF_SIZE` is a power of two. -/
  rf_power : 2 ^ c.rfSize.log2 = c.rfSize
  /-- R11 (e): `P_RF_SIZE` ≥ 4. -/
  rf_size : 4 ≤ c.rfSize
  /-- R11 (e): `P_RF_SCALE` ∈ {1, 4}. -/
  rf_scale : c.rfScale = 1 ∨ c.rfScale = 4
  /-- R11 (f): every key of `P_OVERRIDES` is a register index. -/
  override_index : ∀ p ∈ c.overrides, p.1 < c.rfSize / 4
  /-- `P_OVERRIDES` is a map: each key once (log entry 17). -/
  override_keys : (c.overrides.map Prod.fst).Nodup
  /-- R10, R173: the table contains 0x00000A07 ↦ 0x02000000. -/
  override_status : (0xA07, 0x02000000#32) ∈ c.overrides
  /-- R11 (f): every key of `P_STRAPS` is a register index. -/
  strap_index : ∀ p ∈ c.straps.toList, p.1 < c.rfSize / 4
  /-- R29: all four strap seeds hold at construction, so where two of them set one byte of the
  register file, byte j of the one and byte k of the other, they agree (log entry 17). -/
  strap_agree : ∀ p ∈ c.straps.toList, ∀ q ∈ c.straps.toList, ∀ j < 4, ∀ k < 4,
    p.1 * c.rfScale + j = q.1 * c.rfScale + k → p.2.extractLsb' (8 * j) 8 = q.2.extractLsb' (8 * k) 8
  /-- R11 (g): `P_W` > 0. -/
  width_pos : 0 < c.width
  /-- R11 (g): `P_W` mod 32 = 0. -/
  width_tiles : c.width % 32 = 0
  /-- R11 (g): `P_H` > 0. -/
  height_pos : 0 < c.height
  /-- R11 (h): the framebuffer window holds every source offset of a frame. -/
  fb_size : c.width * c.paddedHeight * 4 ≤ c.fbWindow.size.toNat

/-- The reset images of E1: DC is function 0, USB is function 1 (95_test_vectors.md §0). -/
def Config.e1Dump (f : FnId) (o : BitVec 8) : Byte :=
  match f, o.toNat with
  | 0, 0x00 => 0xCD
  | 0, 0x01 => 0xAB
  | 0, 0x02 => 0x23
  | 0, 0x03 => 0x01
  | 0, 0x13 => 0x80
  | 1, 0x00 => 0x11
  | 1, 0x01 => 0x11
  | 1, 0x02 => 0x22
  | 1, 0x03 => 0x22
  | 1, 0x12 => 0x10
  | 1, 0x13 => 0x80
  | _, _ => 0

/-- Example configuration E1 (95_test_vectors.md §0): test values, not hardware values. Its draws are
test choices: opaque reads answer 0x5A in every lane, the surface is acquired, a torn byte is old. -/
def Config.e1 : Config where
  cfgWindow := ⟨0xC0000000, 0x10000⟩
  cfgRoute a :=
    if a.toNat / 0x10000 = 0xC000 then
      if a.toNat / 0x100 % 0x100 = 0 then some 0
      else if a.toNat / 0x100 % 0x100 = 1 then some 1
      else none
    else none
  bridges := [[0, 1]]
  flat := [⟨⟨0xE0000000, 0x1000⟩, 0⟩]
  dc := 0
  dump := Config.e1Dump
  devSize f := if f = 0 then 0x100000 else 0x1000
  rfSize := 0x100000
  rfScale := 4
  overrides := [(0xA07, 0x02000000)]
  straps := #v[(0x100, 0x11110000), (0x101, 0x22220000), (0x102, 0x33330000), (0x103, 0x44440000)]
  rfInit _ := 0
  fbWindow := ⟨0x10000000, 0x1000⟩
  width := 32
  height := 32
  repack p := p
  displayEnabled := true
  vsync0 := false
  fullscreen0 := false
  opaqueRead _ _ _ _ := 0x5A5A5A5A5A5A5A5A
  surfaceAcquired _ := true
  tear _ _ := 0
  memInit a := BitVec.ofNat 8 a
  bufInit _ := 0

/-- E1 is well-formed under R11 (95_test_vectors.md §0). -/
theorem Config.e1_wellFormed : Config.e1.WellFormed where
  flat_size := by decide
  flat_disjoint := by simp [Config.e1]
  flat_window := by
    intro r hr
    simp only [Config.e1, List.mem_singleton] at hr
    subst hr
    exact Or.inr (by decide)
  window_size := by decide
  route_attached := by
    intro a f h
    simp only [Config.e1] at h
    split at h <;> (try split at h) <;> (try split at h)
    all_goals simp_all [Config.functions, Config.e1]
  attached_once := by decide
  dc_attached := by decide
  dev_size := by decide
  rf_power := by decide
  rf_size := by decide
  rf_scale := by decide
  override_index := by decide
  override_keys := by decide
  override_status := by decide
  strap_index := by decide
  strap_agree := by decide
  width_pos := by decide
  width_tiles := by decide
  height_pos := by decide
  fb_size := by decide

/-- A constructed block: a configuration that passed the check of R281 step 1. A `Block` of an
ill-formed configuration does not exist, which is the refusal of R11. The default values only show
that the type has an element. -/
structure Block where
  cfg : Config := Config.e1
  wf : cfg.WellFormed := by exact Config.e1_wellFormed
deriving Inhabited

/-- A block whose register file has the size and the scale that the spec decides (R10, R28). -/
structure DecidedBlock where
  block : Block := {}
  /-- `P_RF_SIZE` = 2^20 (D15). -/
  rf_size : block.cfg.rfSize = Config.decidedRfSize := by rfl
  /-- `P_RF_SCALE` = 4 (D16). -/
  rf_scale : block.cfg.rfScale = Config.decidedRfScale := by rfl
deriving Inhabited

/-- The block the model speaks of, with its decided values. It has no body: nothing in Lean can evaluate
its configuration, so what is proved of it holds for every value of every OPEN parameter and of every
draw (R10, log entry 1). -/
opaque Config.decidedBlock : DecidedBlock

/-- The block that `exec` and `step` run: well-formed, its register file as decided (R10, R28). -/
def Config.block : Block := Config.decidedBlock.block

end Sys2Proof
end

