-- ==== Sys2Proof/Machine/State.lean ====
section
/-! DEFINITION. The state of the block as plain data (spec/10_state.md R22), the outputs and the
surroundings the spec names, and the machine right after construction (R280–R282). -/

namespace Sys2Proof.Machine

/-- A sparse byte array: (key, byte) pairs with strictly rising keys, none equal to what an unlisted
key reads as (`Memory.wf`). What an unlisted key reads as is the memory's reset content. -/
abbrev Memory := List Host.Cell

/-- The production loop's mode `PL.mode` (R32). -/
inductive Mode where
  | off | starting | running | stopped | failed
deriving DecidableEq, Repr

/-- A line of the operator log (R221, R252): its text is not specified. -/
inductive LogLine where
  | productionLoopInitializationFailure
deriving DecidableEq, Repr

/-- What happens next, one entry each (R256: the agents' steps interleave in every order; the order is
data of the state, log entry 2). -/
inductive Input where
  /-- A transaction arrives on the bus port or on the signal port (R90). -/
  | command (t : Transaction)
  /-- The production loop takes its turn; `writes` are the main-memory writes, in order, that other
  agents make while it does (R229, R79). -/
  | loop (writes : List (Addr × Byte))
  /-- Other agents write main memory between two steps of the block (R68). -/
  | memory (writes : List (Addr × Byte))
deriving DecidableEq, Repr

/-- The state. The first eight fields are R22's whole list. -/
structure State where
  /-- `CS[f]`: byte o of function f's configuration space, at key `256·f + o` (R23, log entry 12). -/
  cs : Memory
  /-- `RF`: the display controller's register file (R28). -/
  rf : Memory
  /-- `PL.mode` (R32). -/
  mode : Mode
  /-- `PL.vsync` (R33). -/
  vsync : Bool
  /-- `PL.fullscreen` (R33). -/
  fullscreen : Bool
  /-- `PL.pending`: accepted and not yet polled signals, oldest first (R34). -/
  pending : List Signal
  /-- `PL.buf`: the Linear Presentation Buffer (R35). -/
  buf : List Byte
  /-- `Presented`: the frames handed to the presentation output, oldest first (R36). -/
  presented : List (List Byte)
  /-- Output: the read results the bus port returned, oldest first (R90, log entry 5). -/
  rdata : List Data
  /-- Output: the operator log (R252, log entry 16). -/
  opLog : List LogLine
  /-- Surroundings: external main memory, which the block only reads (R68, R79, log entry 9). -/
  mem : Memory
  /-- The model's own: what happens next (log entry 2). -/
  inputs : List Input
  /-- The model's own: how many draws have been taken (log entry 6). -/
  draws : Nat
deriving DecidableEq, Repr

/-- Why the machine stops although no command was refused. -/
inductive Fault where
  /-- Raised by `step` when no input is left and the production loop has no enabled step: the run is
  over (R240). Safe: the block has no step to take there. -/
  | runOver
deriving DecidableEq, Repr

/-- Why a command is refused. -/
inductive Refusal where
  /-- An instruction without a meaning in this model; no arm of `exec` raises it. Safe. -/
  | notModelled (mnemonic : String)
  /-- Raised by `step` for a reserved command byte (R97). Safe: refusal errs toward unprovable (D39). -/
  | reservedCommand (cmd : Byte)
  /-- Raised by `step` for a SIG command on the bus port or a BUS command on the signal port (R97). Safe. -/
  | wrongPort (cmd : Byte)
deriving DecidableEq, Repr

/-- The state after construction from a configuration (R281 steps 3 to 6): configuration spaces and
register file hold their reset contents, so nothing is listed. -/
def State.init (c : Config) : State where
  cs := []
  rf := []
  mode := if c.displayEnabled then .starting else .off
  vsync := c.vsync0
  fullscreen := c.fullscreen0
  pending := []
  buf := (List.range (c.width * c.height * 4)).map c.bufInit
  presented := []
  rdata := []
  opLog := []
  mem := []
  inputs := []
  draws := 0

/-- The machine right after reset: reset is construction (R280), here of the block `Config.block`. -/
def State.reset : State := State.init Config.block.cfg

end Sys2Proof.Machine
end

