-- ==== Sys2Proof/Machine/Operands.lean ====
section
/-! DEFINITION. Operand forms: sizes, byte lanes, little-endian values, ranges and offsets (R12–R14, R64,
R93, R144). -/

namespace Sys2Proof.Machine

/-- `n = 1 << SZ` (R93). -/
def bytes : Size → Nat
  | .one => 1
  | .two => 2
  | .four => 4
  | .eight => 8

/-- `lane(v, k) = v[8k+7:8k]`: byte k of a bus data value (R14). -/
def lane (v : Data) (k : Nat) : Byte := v.extractLsb' (8 * k) 8

/-- `lane` of a 32-bit seed or sentinel (R29). -/
def lane32 (v : BitVec 32) (k : Nat) : Byte := v.extractLsb' (8 * k) 8

/-- `LE(b_0, …, b_(n−1))` as a natural (R14, D2). -/
def leNat : List Byte → Nat
  | [] => 0
  | b :: bs => b.toNat + 256 * leNat bs

/-- The bus data value whose lane k is `b k` for k < n and zero above (R64, R67). -/
def dataOfLanes (n : Size) (b : Nat → Byte) : Data :=
  BitVec.ofNat 64 (leNat ((List.range (bytes n)).map b))

/-- `base ≤ a < base + size`, the sum over naturals: the half-open test of the configuration window
(R110) and of flat ranges (R116, D5). -/
def inRange (r : AddrRange) (a : Addr) : Bool :=
  r.base.toNat ≤ a.toNat && a.toNat < r.base.toNat + r.size.toNat

/-- `a & 0xFF`: the register offset of a configuration address (R62, R144). -/
def cfgOffset (a : Addr) : BitVec 8 := a.setWidth 8

/-- The offset of byte k of a configuration access, `(o + k) & 0xFF` (R166, R167, D11). -/
def cfgByteOffset (o : BitVec 8) (k : Nat) : BitVec 8 := o + BitVec.ofNat 8 k

end Sys2Proof.Machine
end

