-- ==== Sys2Proof/Machine/Ops.lean ====
section
/-! DEFINITION. The named operations over the memories and the outputs: canonical sparse memory, the reset
contents it is a difference from, configuration spaces, register file, main memory, draws. The block
raises no exception and no trap (R250, R255), so there is no operation that takes one or returns from
one. -/

namespace Sys2Proof.Machine

/-! ### Sparse memory in canonical form -/

/-- The byte at key `a`; an unlisted key reads as its reset content `dflt a`. -/
def Memory.read (dflt : Nat → Byte) : Memory → Nat → Byte
  | [], a => dflt a
  | (x, b) :: m, a => if x = a then b else Memory.read dflt m a

/-- Put the entry for `a` in front of `m`, unless the byte is what an unlisted `a` reads as. -/
def Memory.entry (dflt : Nat → Byte) (a : Nat) (b : Byte) (m : Memory) : Memory :=
  if b = dflt a then m else (a, b) :: m

/-- Write byte `b` at key `a`, keeping the canonical form. -/
def Memory.write (dflt : Nat → Byte) : Memory → Nat → Byte → Memory
  | [], a, b => Memory.entry dflt a b []
  | (x, c) :: m, a, b =>
    if a < x then Memory.entry dflt a b ((x, c) :: m)
    else if a = x then Memory.entry dflt a b m
    else (x, c) :: Memory.write dflt m a b

/-- Write lanes 0..n−1 of `v`, in this order, lane k at key `key k` (R14, R64, R95). -/
def Memory.writeLanes (dflt : Nat → Byte) (key : Nat → Nat) (v : Data) : Nat → Memory → Memory
  | 0, m => m
  | n + 1, m => Memory.write dflt (Memory.writeLanes dflt key v n m) (key n) (lane v n)

/-- Every key is at least `lo` and the keys rise strictly. -/
def Memory.rising (lo : Nat) : Memory → Bool
  | [] => true
  | (x, _) :: m => lo ≤ x && Memory.rising (x + 1) m

/-- The canonical form: keys strictly rising, and no entry equal to what its key reads as unlisted. -/
def Memory.wf (dflt : Nat → Byte) (m : Memory) : Bool :=
  Memory.rising 0 m && m.all fun p => p.2 != dflt p.1

/-! ### Configuration spaces -/

/-- Where byte `o` of function f's configuration space stands in `State.cs` (log entry 12). -/
def csKey (f : FnId) (o : BitVec 8) : Nat := 256 * f + o.toNat

/-- The reset content of the configuration spaces: `P_DUMP[f][o]` (R27). -/
def csReset (c : Config) (key : Nat) : Byte := c.dump (key / 256) (BitVec.ofNat 8 key)

/-- `CS[f][o]` (R14). -/
def csByte (c : Config) (s : State) (f : FnId) (o : BitVec 8) : Byte :=
  Memory.read (csReset c) s.cs (csKey f o)

/-- FnConfigRead(f, o, n): the n bytes at `(o+k) & 0xFF`, little-endian (R166). -/
def fnConfigRead (c : Config) (s : State) (f : FnId) (o : BitVec 8) (n : Size) : Data :=
  dataOfLanes n fun k => csByte c s f (cfgByteOffset o k)

/-- FnConfigWrite(f, o, v, n): `CS[f][(o+k) & 0xFF] <- lane(v, k)` for k < n (R167). -/
def fnConfigWrite (c : Config) (s : State) (f : FnId) (o : BitVec 8) (v : Data) (n : Size) : State :=
  { s with cs := Memory.writeLanes (csReset c) (fun k => csKey f (cfgByteOffset o k)) v (bytes n) s.cs }

/-- The offset of byte j of BAR i: `0x10 + 4i + j` (R24, R25). -/
def barOffset (i j : Nat) : BitVec 8 := BitVec.ofNat 8 (0x10 + 4 * i + j)

/-- `BAR(f, i)`: the four bytes at 0x10 + 4i, little-endian, no bit masked, read live (R25). -/
def bar (c : Config) (s : State) (f : FnId) (i : Nat) : Nat :=
  leNat ((List.range 4).map fun j => csByte c s f (barOffset i j))

/-! ### Register file -/

/-- The byte that the strap seeds give byte j of the register file, if one does; of two seeds of one
byte the later in the table wins (R29, R281 step 4). -/
def strapByte (scale : Nat) : List (Nat × BitVec 32) → Nat → Option Byte
  | [], _ => none
  | (i, v) :: seeds, j =>
    match strapByte scale seeds j with
    | some b => some b
    | none => if i * scale ≤ j ∧ j < i * scale + 4 then some (lane32 v (j - i * scale)) else none

/-- The reset content of the register file: the strap seeds over `P_RF_INIT` (R29). -/
def rfReset (c : Config) (j : Nat) : Byte :=
  (strapByte c.rfScale c.straps.toList j).getD (c.rfInit j)

/-- `RF[j]` (R14). -/
def rfByte (c : Config) (s : State) (j : Nat) : Byte := Memory.read (rfReset c) s.rf j

/-! ### Main memory -/

/-- What main memory holds at an address (R79). -/
def memByte (c : Config) (s : State) (a : Nat) : Byte := Memory.read c.memInit s.mem a

/-- Other agents write main memory, one byte after the other (R68). -/
def writeMainMemory (c : Config) (s : State) (writes : List (Addr × Byte)) : State :=
  { s with mem := writes.foldl (fun m w => Memory.write c.memInit m w.1.toNat w.2) s.mem }

/-! ### Opaque devices and outputs -/

/-- `OpaqueRead(d, a, n)`: a draw (R14), fresh at each read, of which the bus returns lanes 0..n−1 and
zero above (R67; log entries 6 and 7). -/
def opaqueRead (c : Config) (s : State) (d : Device) (a : Addr) (n : Size) : Data × State :=
  (dataOfLanes n (lane (c.opaqueRead s.draws d a n)), { s with draws := s.draws + 1 })

/-- `OpaqueWrite(d, a, n, v)`: no effect on any state of the spec (R14, D22, D23; log entry 8). -/
def opaqueWrite (s : State) (_d : Device) (_a : Addr) (_n : Size) (_v : Data) : State := s

/-- The bus port returns `rdata` (R90). -/
def respond (r : Data × State) : State := { r.2 with rdata := r.2.rdata ++ [r.1] }

/-- `Present(buf)`: hand a copy of `PL.buf` to the presentation output (R226). -/
def present (s : State) : State := { s with presented := s.presented ++ [s.buf] }

end Sys2Proof.Machine
end

