-- ==== Sys2Proof/Machine/DisplayController.lean ====
section
/-! DEFINITION. The device capability and the display controller's register file
(spec/42_display_controller.md). `NotMine` (R163) is `none`. -/

namespace Sys2Proof.Machine

/-- isAddressMapped(f, a): some BAR i < 6 has `base ≤ a ≤ base + P_DEVSIZE[f]`, inclusive, over
naturals, the BAR read live (R161). -/
def isAddressMapped (c : Config) (s : State) (f : FnId) (a : Addr) : Bool :=
  (List.range 6).any fun i =>
    bar c s f i ≤ a.toNat && a.toNat ≤ bar c s f i + c.devSize f

/-- `DCRegIndex(a) = (a & (P_RF_SIZE − 1)) / 4` (R169). -/
def dcRegIndex (c : Config) (a : Addr) : Nat := (a.toNat &&& (c.rfSize - 1)) / 4

/-- `DCRegOffset(a) = DCRegIndex(a) × P_RF_SCALE` (R169). -/
def dcRegOffset (c : Config) (a : Addr) : Nat := dcRegIndex c a * c.rfScale

/-- The register-file byte that lane k of an access at `a` names: `(off + k) mod P_RF_SIZE` (R170, R171). -/
def dcRegKey (c : Config) (a : Addr) (k : Nat) : Nat := (dcRegOffset c a + k) % c.rfSize

/-- `P_OVERRIDES[i]`, if i is a key (R172). -/
def overrideAt (c : Config) (i : Nat) : Option (BitVec 32) := c.overrides.lookup i

/-- DCRegRead(a, n): the generic copy, then the override, which replaces the whole result (R170, R172). -/
def dcRegRead (c : Config) (s : State) (a : Addr) (n : Size) : Data :=
  let d := dataOfLanes n fun k => rfByte c s (dcRegKey c a k)
  match overrideAt c (dcRegIndex c a) with
  | some v => v.setWidth 64
  | none => d

/-- DCRegWrite(a, v, n): n bytes of RF, the override table not consulted (R171, R174). -/
def dcRegWrite (c : Config) (s : State) (a : Addr) (v : Data) (n : Size) : State :=
  { s with rf := Memory.writeLanes (rfReset c) (dcRegKey c a) v (bytes n) s.rf }

/-- FnMemRead(f, a, n) (R163). -/
def fnMemRead (c : Config) (s : State) (f : FnId) (a : Addr) (n : Size) : Option (Data × State) :=
  if isAddressMapped c s f a then
    if f = c.dc then some (dcRegRead c s a n, s) else some (opaqueRead c s (.function f) a n)
  else none

/-- FnMemWrite(f, a, v, n) (R164). -/
def fnMemWrite (c : Config) (s : State) (f : FnId) (a : Addr) (v : Data) (n : Size) : Option State :=
  if isAddressMapped c s f a then
    if f = c.dc then some (dcRegWrite c s a v n) else some (opaqueWrite s (.function f) a n v)
  else none

end Sys2Proof.Machine
end

