-- ==== Sys2Proof/Machine/PciBridge.lean ====
section
/-! DEFINITION. The PCI bridge (spec/41_pci_bridge.md): BAR-mapped traffic goes to the first function in
enumeration order that claims the address, configuration traffic to the function already selected. -/

namespace Sys2Proof.Machine

/-- BridgeMemRead(b, a, n): first match wins, `none` is NotMine (R141, R143). -/
def bridgeMemRead (c : Config) (s : State) (a : Addr) (n : Size) : List FnId → Option (Data × State)
  | [] => none
  | f :: fs =>
    match fnMemRead c s f a n with
    | some r => some r
    | none => bridgeMemRead c s a n fs

/-- BridgeMemWrite(b, a, v, n) (R142). -/
def bridgeMemWrite (c : Config) (s : State) (a : Addr) (v : Data) (n : Size) : List FnId → Option State
  | [] => none
  | f :: fs =>
    match fnMemWrite c s f a v n with
    | some t => some t
    | none => bridgeMemWrite c s a v n fs

/-- BridgeCfgRead(f, a, n): the low byte of the address is the offset (R144). -/
def bridgeCfgRead (c : Config) (s : State) (f : FnId) (a : Addr) (n : Size) : Data :=
  fnConfigRead c s f (cfgOffset a) n

/-- BridgeCfgWrite(f, a, v, n) (R145). -/
def bridgeCfgWrite (c : Config) (s : State) (f : FnId) (a : Addr) (v : Data) (n : Size) : State :=
  fnConfigWrite c s f (cfgOffset a) v n

end Sys2Proof.Machine
end

