-- ==== Sys2Proof/Machine/RootBus.lean ====
section
/-! DEFINITION. The Root Bus (spec/40_root_bus.md): dispatch R110 and the four bus-port commands, each
first as an operation of a configuration `c`, then as the meaning of the instruction on the block
`Config.block`. -/

namespace Sys2Proof.Machine

/-- The bridges in registration order, for a read (R110 step 2, R111). -/
def bridgesMemRead (c : Config) (s : State) (a : Addr) (n : Size) :
    List (List FnId) → Option (Data × State)
  | [] => none
  | b :: bs =>
    match bridgeMemRead c s a n b with
    | some r => some r
    | none => bridgesMemRead c s a n bs

/-- The bridges in registration order, for a write (R110 step 2, R112). -/
def bridgesMemWrite (c : Config) (s : State) (a : Addr) (v : Data) (n : Size) :
    List (List FnId) → Option State
  | [] => none
  | b :: bs =>
    match bridgeMemWrite c s a v n b with
    | some t => some t
    | none => bridgesMemWrite c s a v n bs

/-- The flat registration whose range contains the address (R116). -/
def flatAt (c : Config) (a : Addr) : Option FlatReg := c.flat.find? fun r => inRange r.range a

/-- CfgRead(a, n): an unrouted configuration address reads as 0 (R115, D10). -/
def cfgRead (c : Config) (s : State) (a : Addr) (n : Size) : Data :=
  match c.cfgRoute a with
  | none => 0
  | some f => bridgeCfgRead c s f a n

/-- CfgWrite(a, v, n): an unrouted write is dropped (R115, D10). -/
def cfgWrite (c : Config) (s : State) (a : Addr) (v : Data) (n : Size) : State :=
  match c.cfgRoute a with
  | none => s
  | some f => bridgeCfgWrite c s f a v n

/-- MRD(a, n): window, bridges, flat ranges, unmapped (R110, R111, R117). -/
def memRead (c : Config) (s : State) (a : Addr) (n : Size) : Data × State :=
  if inRange c.cfgWindow a then (cfgRead c s a n, s)
  else
    match bridgesMemRead c s a n c.bridges with
    | some r => r
    | none =>
      match flatAt c a with
      | some r => opaqueRead c s (.flat r.dev) a n
      | none => (0, s)

/-- MWR(a, v, n): window, bridges, flat ranges, dropped (R110, R112, R117). -/
def memWrite (c : Config) (s : State) (a : Addr) (v : Data) (n : Size) : State :=
  if inRange c.cfgWindow a then cfgWrite c s a v n
  else
    match bridgesMemWrite c s a v n c.bridges with
    | some t => t
    | none =>
      match flatAt c a with
      | some r => opaqueWrite s (.flat r.dev) a n v
      | none => s

/-- MRD on the block of configuration `c` (R111). -/
def execMrdIn (c : Config) (n : Size) (addr : Addr) (s : State) : Host.Outcome State Fault Refusal :=
  .next (respond (memRead c s addr n))

/-- MWR on the block of configuration `c` (R112); a write returns nothing (R90). -/
def execMwrIn (c : Config) (n : Size) (addr : Addr) (wdata : Data) (s : State) :
    Host.Outcome State Fault Refusal :=
  .next (memWrite c s addr wdata n)

/-- CRD on the block of configuration `c`: the window is not tested (R113). -/
def execCrdIn (c : Config) (n : Size) (addr : Addr) (s : State) : Host.Outcome State Fault Refusal :=
  .next (respond (cfgRead c s addr n, s))

/-- CWR on the block of configuration `c` (R114). -/
def execCwrIn (c : Config) (n : Size) (addr : Addr) (wdata : Data) (s : State) :
    Host.Outcome State Fault Refusal :=
  .next (cfgWrite c s addr wdata n)

/-- MRD (R111). -/
def execMrd (n : Size) (addr : Addr) (s : State) : Host.Outcome State Fault Refusal :=
  execMrdIn Config.block.cfg n addr s

/-- MWR (R112). -/
def execMwr (n : Size) (addr : Addr) (wdata : Data) (s : State) : Host.Outcome State Fault Refusal :=
  execMwrIn Config.block.cfg n addr wdata s

/-- CRD (R113). -/
def execCrd (n : Size) (addr : Addr) (s : State) : Host.Outcome State Fault Refusal :=
  execCrdIn Config.block.cfg n addr s

/-- CWR (R114). -/
def execCwr (n : Size) (addr : Addr) (wdata : Data) (s : State) : Host.Outcome State Fault Refusal :=
  execCwrIn Config.block.cfg n addr wdata s

end Sys2Proof.Machine
end

