-- ==== Sys2Proof/Machine/Flags.lean ====
section
/-! DEFINITION. Status bits. No operation of the block sets a flag or a condition code (R39); the only
status bits are `PL.mode`, `PL.vsync` and `PL.fullscreen`, and only Post and Poll act on them. -/

namespace Sys2Proof.Machine

/-- Is the signal port's signal kept in this mode (R231)? -/
def listening : Mode → Bool
  | .starting => true
  | .running => true
  | .off => false
  | .stopped => false
  | .failed => false

/-- `Post(s)`: queue the signal in modes Starting and Running, do nothing otherwise (R231). -/
def post (sig : Signal) (s : State) : State :=
  if listening s.mode then { s with pending := s.pending ++ [sig] } else s

/-- One signal at the poll: each toggle inverts its bit once (R232). -/
def applySignal (s : State) (sig : Signal) : State :=
  match sig with
  | .vsync => { s with vsync := !s.vsync }
  | .fullscreen => { s with fullscreen := !s.fullscreen }
  | .quit => s

/-- `Poll()`: apply the pending signals in order, empty the queue, stop on a quit (R232). -/
def poll (s : State) : State :=
  let t := { s.pending.foldl applySignal s with pending := [] }
  if Signal.quit ∈ s.pending then { t with mode := .stopped } else t

end Sys2Proof.Machine
end

