-- ==== Sys2Proof/Machine/Signals.lean ====
section
/-! DEFINITION. The presentation signals (spec/44_production_loop.md §3). A SIG command only posts
(R231); its toggle or stop happens at the next poll. No configuration enters. -/

namespace Sys2Proof.Machine

/-- SIG_VSYNC: `Post(VSYNC)` (R233). -/
def execSigVsync (s : State) : Host.Outcome State Fault Refusal := .next (post .vsync s)

/-- SIG_FULLSCREEN: `Post(FULLSCREEN)` (R234). -/
def execSigFullscreen (s : State) : Host.Outcome State Fault Refusal := .next (post .fullscreen s)

/-- SIG_QUIT: `Post(QUIT)` (R235). -/
def execSigQuit (s : State) : Host.Outcome State Fault Refusal := .next (post .quit s)

end Sys2Proof.Machine
end

