-- ==== Sys2Proof/Machine/Dispatch.lean ====
section
/-! DEFINITION. exec: one arm per command (R96), each one direct call of its meaning. -/

namespace Sys2Proof.Machine

def exec (i : Instr) (s : State) : Host.Outcome State Fault Refusal :=
  match i with
  | .mrd n addr => Sys2Proof.Machine.execMrd n addr s
  | .mwr n addr wdata => Sys2Proof.Machine.execMwr n addr wdata s
  | .crd n addr => Sys2Proof.Machine.execCrd n addr s
  | .cwr n addr wdata => Sys2Proof.Machine.execCwr n addr wdata s
  | .sigVsync => Sys2Proof.Machine.execSigVsync s
  | .sigFullscreen => Sys2Proof.Machine.execSigFullscreen s
  | .sigQuit => Sys2Proof.Machine.execSigQuit s

end Sys2Proof.Machine
end

