-- ==== Sys2Proof/Decode.lean ====
section
/-! DEFINITION. The decoder, total on every byte (R99), and after it the encoder, written from the same
opcode map (R96) and formats (R91, R92). -/

namespace Sys2Proof

/-- What the command byte alone spells (R99), before the port's operands are attached. -/
inductive Command where
  | mrd (n : Size) | mwr (n : Size) | crd (n : Size) | cwr (n : Size)
  | signal (sig : Signal)
deriving DecidableEq, Repr

/-- Why a transaction is rejected (R97). -/
inductive Reject where
  /-- The command byte is reserved. -/
  | reserved (cmd : Byte)
  /-- A SIG command on the bus port, or a BUS command on the signal port. -/
  | wrongPort (cmd : Byte)
deriving DecidableEq, Repr

/-- The size code SZ = cmd[1:0] (R91, R93): n = 1 << SZ. -/
def sizeOfCode (sz : BitVec 2) : Size :=
  if sz = 0 then .one else if sz = 1 then .two else if sz = 2 then .four else .eight

/-- `Decode(cmd)` (R99): the one row of the opcode map R96 whose match and mask fit, or none, Reserved. -/
def decodeCmd (cmd : Byte) : Option Command :=
  let n := sizeOfCode (cmd.extractLsb' 0 2)
  if cmd &&& 0xFC = 0x00 then some (.mrd n)
  else if cmd &&& 0xFC = 0x04 then some (.mwr n)
  else if cmd &&& 0xFC = 0x40 then some (.crd n)
  else if cmd &&& 0xFC = 0x44 then some (.cwr n)
  else if cmd &&& 0xFF = 0x80 then some (.signal .vsync)
  else if cmd &&& 0xFF = 0x81 then some (.signal .fullscreen)
  else if cmd &&& 0xFF = 0x82 then some (.signal .quit)
  else none

/-- The instruction that posts a signal (R233, R234, R235). -/
def instrOfSignal : Signal → Instr
  | .vsync => .sigVsync
  | .fullscreen => .sigFullscreen
  | .quit => .sigQuit

/-- Decode one transaction: the command byte (R99), on the port its class belongs to (R90, R97), with
the port's operands (R94, R95). A reserved byte is reserved on either port (log entry 18). -/
def decode : Transaction → Except Reject Instr
  | .bus cmd addr wdata =>
    match decodeCmd cmd with
    | some (.mrd n) => .ok (.mrd n addr)
    | some (.mwr n) => .ok (.mwr n addr wdata)
    | some (.crd n) => .ok (.crd n addr)
    | some (.cwr n) => .ok (.cwr n addr wdata)
    | some (.signal _) => .error (.wrongPort cmd)
    | none => .error (.reserved cmd)
  | .signal cmd =>
    match decodeCmd cmd with
    | some (.signal sig) => .ok (instrOfSignal sig)
    | some _ => .error (.wrongPort cmd)
    | none => .error (.reserved cmd)

/-- The transaction whose bits are `w`, laid out as the opcode table numbers them (log entry 18): cmd in
bits 7..0, `addr` in bits 71..8, `wdata` in bits 135..72, every bit from `nbits` on zero. A byte of
CLASS 10 goes to the signal port, any other to the bus port (R91, R92). -/
def tableTransaction (nbits w : Nat) : Transaction :=
  let bits := w % 2 ^ nbits
  let cmd : Byte := BitVec.ofNat 8 bits
  if cmd.extractLsb' 6 2 = 2 then .signal cmd
  else .bus cmd (BitVec.ofNat 64 (bits / 2 ^ 8)) (BitVec.ofNat 64 (bits / 2 ^ 72))

/-- The instruction the decoder reads from a word of the opcode table. -/
def decodeTableWord (nbits w : Nat) : Option Instr :=
  (decode (tableTransaction nbits w)).toOption

/-- The size code of a transfer size (R93). -/
def Size.code : Size → BitVec 2
  | .one => 0
  | .two => 1
  | .four => 2
  | .eight => 3

/-- The SIG field of a signal (R92). -/
def Signal.code : Signal → BitVec 2
  | .vsync => 0
  | .fullscreen => 1
  | .quit => 2

/-- Format BUS (R91): CLASS in bits 7:6, RES0 = 000, W in bit 2, SZ in bits 1:0. -/
def encodeBus (cls : BitVec 2) (w : BitVec 1) (n : Size) : Byte :=
  cls ++ 0#3 ++ w ++ n.code

/-- Format SIG (R92): CLASS = 10, RES0 = 0000, SIG in bits 1:0. -/
def encodeSig (sig : Signal) : Byte :=
  2#2 ++ 0#4 ++ sig.code

/-- The transaction that issues an instruction (R90–R95). A read's `wdata` means nothing; it is sent as 0. -/
def encode : Instr → Transaction
  | .mrd n addr => .bus (encodeBus 0 0 n) addr 0
  | .mwr n addr wdata => .bus (encodeBus 0 1 n) addr wdata
  | .crd n addr => .bus (encodeBus 1 0 n) addr 0
  | .cwr n addr wdata => .bus (encodeBus 1 1 n) addr wdata
  | .sigVsync => .signal (encodeSig .vsync)
  | .sigFullscreen => .signal (encodeSig .fullscreen)
  | .sigQuit => .signal (encodeSig .quit)

/-- A transaction's bits in the opcode table's numbering, the inverse of `tableTransaction` on whole
transactions (log entry 18). -/
def transactionBits : Transaction → Nat
  | .bus cmd addr wdata => cmd.toNat + 2 ^ 8 * addr.toNat + 2 ^ 72 * wdata.toNat
  | .signal cmd => cmd.toNat

end Sys2Proof
end

