-- ==== Sys2Proof/Machine/TileTransform.lean ====
section
/-! DEFINITION. The tile-address transform (spec/43_tile_transform.md), over naturals (R13, R208). The
portable path and the compute-kernel path are this one function (R9, R230). -/

namespace Sys2Proof.Machine

/-- `stdOffset(x, y) = (y * width + x) * 4` (R200). -/
def stdOffset (width x y : Nat) : Nat := (y * width + x) * 4

/-- `x & ~31`, which is `x − (x mod 32)` (R13). -/
def clearLow5 (x : Nat) : Nat := x - x % 32

/-- The interleave of row and column bits, before the bit-5 flip (R201). -/
def interleave (row col : Nat) : Nat :=
  (col &&& 3) + ((row &&& 1) <<< 2) + ((col &&& 28) <<< 1) + ((row &&& 30) <<< 5)

/-- The pixel slot of (row, col): block base plus the interleave with the bit-5 flip (R201). -/
def tileSlot (width row col : Nat) : Nat :=
  clearLow5 row * width + clearLow5 col * 32 + (interleave row col ^^^ ((row &&& 8) <<< 2))

/-- `tileOffset(width, byteAddr)`: the tiled byte offset of a linear byte address (R201). -/
def tileOffset (width byteAddr : Nat) : Nat :=
  tileSlot width (byteAddr / (width * 4)) (byteAddr % (width * 4) / 4) * 4

/-- `untileOffset(width, t)`: the inverse, for widths that are multiples of 32 (R206). -/
def untileOffset (width t : Nat) : Nat :=
  let p := t / 4
  let rb := p / (32 * width)
  let rem := p % (32 * width)
  let cb := rem / 1024
  let i2 := rem % 1024
  let i := i2 ^^^ (((i2 >>> 8) &&& 1) <<< 5)
  let col := cb * 32 + (i &&& 3) + (((i >>> 3) &&& 7) <<< 2)
  let row := rb * 32 + ((i >>> 2) &&& 1) + (((i >>> 6) &&& 15) <<< 1)
  (row * width + col) * 4

end Sys2Proof.Machine
end

