-- ==== Sys2Proof/Machine/ProductionLoop.lean ====
section
/-! DEFINITION. The production loop (spec/44_production_loop.md §1, §2, §4): surface acquisition, the frame
step and when the loop has a step at all. It never reads or writes `CS` or `RF` (R238). -/

namespace Sys2Proof.Machine

/-- The values that main-memory byte `a` holds while a frame is read: the old one, then each value
that another agent writes there meanwhile (R79, R229). -/
def heldValues (c : Config) (s : State) (writes : List (Addr × Byte)) (a : Nat) : List Byte :=
  memByte c s a :: (writes.filter fun w => w.1.toNat = a).map Prod.snd

/-- The oracle's answer for one byte (R79): any one of the values held, which one is a draw that is
independent for every byte of every frame (D31, log entry 10). -/
def oracleByte (c : Config) (s : State) (writes : List (Addr × Byte)) (a : Nat) : Byte :=
  let vs := heldValues c s writes a
  vs.getD (c.tear s.draws a % vs.length) (memByte c s a)

/-- `flip(y) = P_H − 1 − y` (R225, D29). -/
def flipRow (c : Config) (y : Nat) : Nat := c.height - 1 - y

/-- The main-memory address of the source slot of display pixel (x, y) (R224). -/
def pixelSource (c : Config) (x y : Nat) : Nat :=
  c.fbWindow.base.toNat + tileOffset c.width (stdOffset c.width x y)

/-- The destination slot of display pixel (x, y) in `PL.buf` (R224). -/
def pixelDest (c : Config) (x y : Nat) : Nat := stdOffset c.width x (flipRow c y)

/-- Store the four bytes of a presentation pixel at `dst` (R224). -/
def putPixel (buf : List Byte) (dst : Nat) (p : Pixel) : List Byte :=
  (((buf.set dst p.b0).set (dst + 1) p.b1).set (dst + 2) p.b2).set (dst + 3) p.b3

/-- PixelStep(x, y), main memory answering `rd` (R224, R227, R228). -/
def pixelStep (c : Config) (rd : Nat → Byte) (buf : List Byte) (xy : Nat × Nat) : List Byte :=
  let src := pixelSource c xy.1 xy.2
  putPixel buf (pixelDest c xy.1 xy.2) (c.repack ⟨rd src, rd (src + 1), rd (src + 2), rd (src + 3)⟩)

/-- The display pixels, row by row; the order is unobservable (R223, R229, log entry 23). -/
def pixels (c : Config) : List (Nat × Nat) :=
  (List.range c.height).flatMap fun y => (List.range c.width).map fun x => (x, y)

/-- Phases (a) and (b) of a frame step: every pixel is converted into the buffer (R223). -/
def renderFrame (c : Config) (rd : Nat → Byte) (buf : List Byte) : List Byte :=
  (pixels c).foldl (pixelStep c rd) buf

/-- FrameStep(): render, present, poll; `writes` reach main memory while it is read (R223, R229). -/
def frameStep (c : Config) (writes : List (Addr × Byte)) (s : State) : State :=
  let t := writeMainMemory c
    { s with buf := renderFrame c (oracleByte c s writes) s.buf, draws := s.draws + 1 } writes
  poll (present t)

/-- AcquireStep(): Running if the presentation boundary grants a surface, else Failed and logged
(R221; which is a draw, log entry 15). -/
def acquireStep (c : Config) (s : State) : State :=
  let t := { s with draws := s.draws + 1 }
  if c.surfaceAcquired s.draws then { t with mode := .running }
  else { t with mode := .failed, opLog := s.opLog ++ [.productionLoopInitializationFailure] }

/-- Has the loop an enabled step in this mode (R237)? -/
def loopEnabled : Mode → Bool
  | .starting => true
  | .running => true
  | .off => false
  | .stopped => false
  | .failed => false

/-- One turn of the production loop while other agents make `writes` to main memory: AcquireStep in
Starting, FrameStep in Running, no step in Off, Stopped and Failed (R221, R223, R237). -/
def loopTurn (c : Config) (writes : List (Addr × Byte)) (s : State) : State :=
  match s.mode with
  | .starting => writeMainMemory c (acquireStep c s) writes
  | .running => frameStep c writes s
  | .off => writeMainMemory c s writes
  | .stopped => writeMainMemory c s writes
  | .failed => writeMainMemory c s writes

end Sys2Proof.Machine
end

