-- ==== Sys2Proof/Machine/Ports.lean ====
section
/-! DEFINITION. The ports and the interleaving of the two agents (R90, R97, R122, R240, R256), over any
meaning `ex` of the commands; and the whole step relation with the configuration as a parameter (R20):
`execIn c`, `stepIn c`. The machine's own `step` is `stepBy Config.block.cfg exec`. -/

namespace Sys2Proof.Machine

/-- A rejected transaction is refused by name: it has no step (R97, D39). -/
def refusalOf : Reject → Refusal
  | .reserved cmd => .reservedCommand cmd
  | .wrongPort cmd => .wrongPort cmd

/-- Perform one transaction: decode it and run the instruction, or refuse it (R97, R99, R122). -/
def transact (ex : Instr → State → Host.Outcome State Fault Refusal) (t : Transaction) (s : State) :
    Host.Outcome State Fault Refusal :=
  match decode t with
  | .ok i => ex i s
  | .error r => .refused (refusalOf r)

/-- No input is left: the bus master presents no further command, so only the production loop can
step; if it has no enabled step either, the run is over (R237, R240, log entry 4). -/
def idle (c : Config) (s : State) : Host.Outcome State Fault Refusal :=
  if loopEnabled s.mode then .next (loopTurn c [] s) else .fault .runOver

/-- One input happens: one step of one agent, or of the world outside (R256). -/
def happens (c : Config) (ex : Instr → State → Host.Outcome State Fault Refusal) (e : Input) (s : State) :
    Host.Outcome State Fault Refusal :=
  match e with
  | .command t => transact ex t s
  | .loop writes => .next (loopTurn c writes s)
  | .memory writes => .next (writeMainMemory c s writes)

/-- One step: the next input happens (R256). -/
def stepBy (c : Config) (ex : Instr → State → Host.Outcome State Fault Refusal) (s : State) :
    Host.Outcome State Fault Refusal :=
  match s.inputs with
  | [] => idle c s
  | e :: rest => happens c ex e { s with inputs := rest }

/-- The meaning of a command on the block of configuration `c` (R20: a parameter of the step relation). -/
def execIn (c : Config) (i : Instr) (s : State) : Host.Outcome State Fault Refusal :=
  match i with
  | .mrd n addr => execMrdIn c n addr s
  | .mwr n addr wdata => execMwrIn c n addr wdata s
  | .crd n addr => execCrdIn c n addr s
  | .cwr n addr wdata => execCwrIn c n addr wdata s
  | .sigVsync => execSigVsync s
  | .sigFullscreen => execSigFullscreen s
  | .sigQuit => execSigQuit s

/-- The step relation of the block of configuration `c` (R20). -/
def stepIn (c : Config) (s : State) : Host.Outcome State Fault Refusal := stepBy c (execIn c) s

/-- Present a transaction next: it comes before every input already scheduled. -/
def presentNext (s : State) (t : Transaction) : State := { s with inputs := .command t :: s.inputs }

end Sys2Proof.Machine
end

