-- ==== Sys2Proof/Machine/Step.lean ====
section
/-! DEFINITION. The step of the machine, and the port transaction that stands for an instruction of the
opcode table. The block fetches nothing (R38, R80): the bus master and the presentation boundary
present its commands (log entry 3). -/

namespace Sys2Proof.Machine

/-- One step of the block `Config.block` (R256). -/
def step (s : State) : Host.Outcome State Fault Refusal := stepBy Config.block.cfg exec s

/-- `s` with the instruction of bits `w` as the next transaction on its port (log entry 3). -/
def State.withFetchWord (s : State) (nbits w : Nat) : State := presentNext s (tableTransaction nbits w)

end Sys2Proof.Machine
end

