-- ==== Sys2Proof/Machine/Schedule.lean ====
section
/-! DEFINITION. The scheduling model (R256, D47): infinite runs of the block, in which the agents' steps
interleave in any order, and weak fairness, the one condition on them. `State.inputs` is a finite part of
such a schedule as plain data; a run is the whole of it, and is not state. -/

namespace Sys2Proof.Machine

/-- The two ports at which commands are presented (R90). -/
inductive Port where
  | bus | signal
deriving DecidableEq, Repr

/-- The port a transaction arrives on (R90). -/
def portOf : Transaction → Port
  | .bus _ _ _ => .bus
  | .signal _ => .signal

/-- What is left on a port when `e` happens: a command performed on it is gone, the rest keeps its order
(R74, R122). -/
def leftWaiting (p : Port) (e : Input) (l : List Transaction) : List Transaction :=
  match e with
  | .command t => if portOf t = p then l.tail else l
  | .loop _ => l
  | .memory _ => l

/-- An infinite run of the block of configuration `c`: at each moment one input happens, and `waiting`
holds what has been presented on a port and not yet been performed, oldest first (log entry 2). -/
structure Run (c : Config) where
  /-- The state at each moment. -/
  state : Nat → State
  /-- What happens at each moment. -/
  event : Nat → Input
  /-- What is presented and not yet performed. -/
  waiting : Port → Nat → List Transaction
  /-- Each moment is one step (R256). -/
  steps : ∀ k, happens c (execIn c) (event k) (state k) = .next (state (k + 1))
  /-- A command that happens is the oldest one presented on its port (R74, R122). -/
  presented : ∀ k t, event k = .command t → (waiting (portOf t) k).head? = some t
  /-- Nothing presented is withdrawn; more may be presented at any time (R122, R231). -/
  kept : ∀ p k, ∃ l, waiting p (k + 1) = leftWaiting p (event k) (waiting p k) ++ l

/-- The bus-dispatch path has an enabled step: a command is presented on a port and decodes (R99, R122;
a reserved or wrong-port command has no step, R97). -/
def busEnabled {c : Config} (r : Run c) (k : Nat) : Prop :=
  ∃ p t i, (r.waiting p k).head? = some t ∧ decode t = .ok i

/-- The bus-dispatch path takes its step at `k`. -/
def busSteps {c : Config} (r : Run c) (k : Nat) : Prop := ∃ t, r.event k = .command t

/-- The production loop takes its step at `k`. -/
def loopSteps {c : Config} (r : Run c) (k : Nat) : Prop := ∃ writes, r.event k = .loop writes

/-- An agent whose step stays enabled from some moment on takes it at that moment or later (R256, D47). -/
def eventuallyTaken (enabled taken : Nat → Prop) : Prop :=
  ∀ k, (∀ j, k ≤ j → enabled j) → ∃ j, k ≤ j ∧ taken j

/-- Weak fairness between the two agents (R256, D47, R296). -/
def weaklyFair {c : Config} (r : Run c) : Prop :=
  eventuallyTaken (busEnabled r) (busSteps r) ∧
  eventuallyTaken (fun k => loopEnabled (r.state k).mode = true) (loopSteps r)

/-- The machine that the block of configuration `c` is, in the host's form. -/
def coreIn (c : Config) : Host.Core :=
  { State := State,
    Fault := Fault,
    Refusal := Refusal,
    step := stepIn c,
    reset := State.init c }

end Sys2Proof.Machine
end

