-- ==== Sys2Proof/Safety.lean ====
section
/-! DEFINITION. What statements are made of: who answers an address, and what counts as a good state,
the invariant of the block of configuration `c`. -/

namespace Sys2Proof.Machine

/-- The function that answers a memory address outside the configuration window, if one does: in the
order of all bridges and their functions, the first whose BARs claim it (R110, R120 (3), R143). -/
def firstClaimant (c : Config) (s : State) (a : Addr) : Option FnId :=
  c.functions.find? fun f => isAddressMapped c s f a

/-- The four bytes of a pixel in address order (R224). -/
def Pixel.toList (p : Pixel) : List Byte := [p.b0, p.b1, p.b2, p.b3]

/-- The next step is a turn of the production loop with these main-memory writes: it is the next input,
or no input is left and the loop steps on its own (R240, log entry 4). -/
def loopIsNext (s : State) (writes : List (Addr × Byte)) (rest : List Input) : Prop :=
  s.inputs = .loop writes :: rest ∨ (s.inputs = [] ∧ writes = [] ∧ rest = [])

/-- What a main-memory byte holds after these writes: the last value written there, or, written by none
of them, what it held (R68). -/
def lastWritten (c : Config) (s : State) (writes : List (Addr × Byte)) (a : Nat) : Byte :=
  ((writes.filter fun w => w.1.toNat = a).map Prod.snd).getLastD (memByte c s a)

/-- The invariant of the block of configuration `c`. -/
structure State.Inv (c : Config) (s : State) : Prop where
  /-- The configuration spaces are in canonical form over `P_DUMP` (R27). -/
  cs_wf : Memory.wf (csReset c) s.cs = true
  /-- Only attached functions' configuration spaces are ever written (R11 (c), R42). -/
  cs_attached : ∀ p ∈ s.cs, p.1 / 256 ∈ c.functions
  /-- The register file is in canonical form over its reset content (R29). -/
  rf_wf : Memory.wf (rfReset c) s.rf = true
  /-- No byte outside the register file exists (R28, R170, R171). -/
  rf_bound : ∀ p ∈ s.rf, p.1 < c.rfSize
  /-- Main memory is in canonical form. -/
  mem_wf : Memory.wf c.memInit s.mem = true
  /-- Main memory is written at 64-bit addresses only (R60). -/
  mem_bound : ∀ p ∈ s.mem, p.1 < 2 ^ 64
  /-- `PL.buf` has four bytes per display pixel (R35). -/
  buf_length : s.buf.length = c.width * c.height * 4
  /-- So has every presented frame (R36). -/
  frame_length : ∀ f ∈ s.presented, f.length = c.width * c.height * 4
  /-- The loop is Off exactly if display production is not enabled (R32, R220). -/
  off_iff : s.mode = .off ↔ c.displayEnabled = false
  /-- No frame is produced before the surface is acquired, nor after failure (R220, R222, R237). -/
  no_frame : s.mode = .off ∨ s.mode = .starting ∨ s.mode = .failed → s.presented = []
  /-- A stopped loop has presented the frame in which the quit was polled (R235). -/
  stopped_frame : s.mode = .stopped → s.presented ≠ []
  /-- Signals are discarded in Off and after the quit was polled (R231, R232). -/
  no_pending : s.mode = .off ∨ s.mode = .stopped → s.pending = []
  /-- The operator log tells exactly whether acquisition failed (R221, R252). -/
  log : s.opLog = if s.mode = .failed then [.productionLoopInitializationFailure] else []

end Sys2Proof.Machine
end

