-- ==== Sys2Proof/Certificates/Slice0/Obligations.lean ====
section
/-! DEFINITION. The statements for the provers. Those about a configuration `c` or a `Block` hold for every
configuration (R10, R20); `MachineIsTheOpaqueBlock` carries them to `exec` and `step`. A statement that
rests on a choice of the model names its log entry. -/

open Sys2Proof Sys2Proof.Machine

/-! ### The machine and its commands -/

/-- `exec` and `step` are the parametric meanings at the opaque configuration: whatever holds of `execIn`
and `stepIn` for every well-formed configuration holds of the machine (R10, R20; log entry 1); and its
register file has the decided size and scale (R10, R28). -/
def Obligations.MachineIsTheOpaqueBlock : Prop :=
  (∀ i s, exec i s = execIn Config.block.cfg i s) ∧ (∀ s, step s = stepIn Config.block.cfg s) ∧
  Config.block.cfg.rfSize = 2 ^ 20 ∧ Config.block.cfg.rfScale = 4

/-- A step whose next input is a transaction that decodes to `i` is `exec i` after the transaction has
left the schedule (R99, R122; the schedule is the model's, log entry 2). -/
def Obligations.StepRunsTheDecodedCommand : Prop :=
  ∀ (s : State) (t : Transaction) (rest : List Input) (i : Instr),
    s.inputs = .command t :: rest → decode t = .ok i → step s = exec i { s with inputs := rest }

/-- The worked encodings of R102, both ways, and its reserved bytes. That a read's `wdata`, which R91
does not give it, is sent as 0 is the model's choice (log entry 18). -/
def Obligations.WorkedEncodings : Prop :=
  ∀ (a : Addr) (v : Data),
    encode (.mrd .one a) = .bus 0x00 a 0 ∧ decode (.bus 0x00 a v) = .ok (.mrd .one a) ∧
    encode (.mrd .two a) = .bus 0x01 a 0 ∧ decode (.bus 0x01 a v) = .ok (.mrd .two a) ∧
    encode (.mrd .four a) = .bus 0x02 a 0 ∧ decode (.bus 0x02 a v) = .ok (.mrd .four a) ∧
    encode (.mrd .eight a) = .bus 0x03 a 0 ∧ decode (.bus 0x03 a v) = .ok (.mrd .eight a) ∧
    encode (.mwr .four a v) = .bus 0x06 a v ∧ decode (.bus 0x06 a v) = .ok (.mwr .four a v) ∧
    encode (.mwr .eight a v) = .bus 0x07 a v ∧ decode (.bus 0x07 a v) = .ok (.mwr .eight a v) ∧
    encode (.crd .two a) = .bus 0x41 a 0 ∧ decode (.bus 0x41 a v) = .ok (.crd .two a) ∧
    encode (.crd .four a) = .bus 0x42 a 0 ∧ decode (.bus 0x42 a v) = .ok (.crd .four a) ∧
    encode (.cwr .one a v) = .bus 0x44 a v ∧ decode (.bus 0x44 a v) = .ok (.cwr .one a v) ∧
    encode (.cwr .four a v) = .bus 0x46 a v ∧ decode (.bus 0x46 a v) = .ok (.cwr .four a v) ∧
    encode .sigVsync = .signal 0x80 ∧ decode (.signal 0x80) = .ok .sigVsync ∧
    encode .sigFullscreen = .signal 0x81 ∧ decode (.signal 0x81) = .ok .sigFullscreen ∧
    encode .sigQuit = .signal 0x82 ∧ decode (.signal 0x82) = .ok .sigQuit ∧
    decodeCmd 0x08 = none ∧ decodeCmd 0x83 = none ∧ decodeCmd 0xC2 = none

/-- Which bytes are reserved, and that a reserved or wrong-port command is refused (R97). That a reserved
byte is refused as reserved on either port, and never as wrong-port, is the model's choice (log entry 18). -/
def Obligations.ReservedAndWrongPortRefused : Prop :=
  (∀ cmd : Byte, decodeCmd cmd = none ↔
    cmd.extractLsb' 6 2 = 3 ∨
    ((cmd.extractLsb' 6 2 = 0 ∨ cmd.extractLsb' 6 2 = 1) ∧ cmd.extractLsb' 3 3 ≠ 0) ∨
    (cmd.extractLsb' 6 2 = 2 ∧ cmd.extractLsb' 2 4 ≠ 0) ∨ cmd = 0x83) ∧
  (∀ (s : State) (rest : List Input) (cmd : Byte) (a : Addr) (v : Data),
    s.inputs = .command (.bus cmd a v) :: rest → decodeCmd cmd = none →
      step s = .refused (.reservedCommand cmd)) ∧
  (∀ (s : State) (rest : List Input) (cmd : Byte),
    s.inputs = .command (.signal cmd) :: rest → decodeCmd cmd = none →
      step s = .refused (.reservedCommand cmd)) ∧
  (∀ (s : State) (rest : List Input) (cmd : Byte) (a : Addr) (v : Data) (sig : Signal),
    s.inputs = .command (.bus cmd a v) :: rest → decodeCmd cmd = some (.signal sig) →
      step s = .refused (.wrongPort cmd)) ∧
  (∀ (s : State) (rest : List Input) (cmd : Byte) (k : Command),
    s.inputs = .command (.signal cmd) :: rest → decodeCmd cmd = some k → (∀ sig, k ≠ .signal sig) →
      step s = .refused (.wrongPort cmd))

/-- Decode and encode agree on every instruction and every operand; and a transaction that decodes is
the encoding of what it decodes to, but for the `wdata` of a read, which means nothing (R90, R94) and
which the encoder sends as 0, the model's choice (log entry 18). -/
def Obligations.DecodeAndEncodeAgree : Prop :=
  (∀ i : Instr, decode (encode i) = .ok i) ∧
  (∀ (t : Transaction) (i : Instr), decode t = .ok i →
    encode i = match t with
      | .bus cmd a v => .bus cmd a (if cmd.extractLsb' 2 1 = 1 then v else 0)
      | .signal cmd => .signal cmd)

/-- Every instruction, laid out in the opcode table's bit numbering with all its operand bits, reaches
its port and decodes to itself (the layout of the operands is the model's, log entry 18). -/
def Obligations.TableWordRoundTrip : Prop :=
  ∀ i : Instr, decodeTableWord 136 (transactionBits (encode i)) = some i

/-- Each command completes on every operand and in every state, with the effect its rule gives it, on the
block (R111–R115, R122, R231). -/
def Obligations.EveryCommandCompletes : Prop :=
  ∀ (s : State) (n : Size) (a : Addr) (v : Data),
    exec (.mrd n a) s = .next (respond (memRead Config.block.cfg s a n)) ∧
    exec (.mwr n a v) s = .next (memWrite Config.block.cfg s a v n) ∧
    exec (.crd n a) s = .next (respond (cfgRead Config.block.cfg s a n, s)) ∧
    exec (.cwr n a v) s = .next (cfgWrite Config.block.cfg s a v n) ∧
    exec .sigVsync s = .next (post .vsync s) ∧
    exec .sigFullscreen s = .next (post .fullscreen s) ∧
    exec .sigQuit s = .next (post .quit s)

/-- A signal is queued in modes Starting and Running and has no effect otherwise; nothing else changes
(R231). -/
def Obligations.SignalsQueueWhileListening : Prop :=
  ∀ s : State,
    exec .sigVsync s = .next (if s.mode = .starting ∨ s.mode = .running then
      { s with pending := s.pending ++ [.vsync] } else s) ∧
    exec .sigFullscreen s = .next (if s.mode = .starting ∨ s.mode = .running then
      { s with pending := s.pending ++ [.fullscreen] } else s) ∧
    exec .sigQuit s = .next (if s.mode = .starting ∨ s.mode = .running then
      { s with pending := s.pending ++ [.quit] } else s)

/-- The frame of the two reads: each completes, returns one value on the bus port and changes nothing
else of the block's state; an opaque device takes at most one draw (R70, R111, R113, R119). -/
def Obligations.ReadsOnlyReturn : Prop :=
  ∀ (n : Size) (a : Addr) (s : State),
    (∃ v d, exec (.mrd n a) s = .next { s with rdata := s.rdata ++ [v], draws := d } ∧
      (d = s.draws ∨ d = s.draws + 1)) ∧
    (∃ v, exec (.crd n a) s = .next { s with rdata := s.rdata ++ [v] })

/-- The frame of MWR: only `CS` and `RF` may change; of `CS` only bytes `(a + k) mod 256`, k < n, of the
function that the address routes to, and only inside the configuration window; of `RF` only the bytes
`DCRegOffset(a) + k` mod `P_RF_SIZE`, and only if the display controller is the first claimant outside
the window (R112, R167, R171). -/
def Obligations.MemoryWriteFrame : Prop :=
  ∀ (n : Size) (a : Addr) (v : Data) (s : State),
    Memory.rising 0 s.cs = true → Memory.rising 0 s.rf = true →
    ∃ t, exec (.mwr n a v) s = .next t ∧ t = { s with cs := t.cs, rf := t.rf } ∧
      (∀ f o, (∀ k < bytes n, ¬ (inRange Config.block.cfg.cfgWindow a = true ∧
          Config.block.cfg.cfgRoute a = some f ∧ o = BitVec.ofNat 8 (a.toNat + k))) →
        csByte Config.block.cfg t f o = csByte Config.block.cfg s f o) ∧
      (∀ j, (∀ k < bytes n, ¬ (inRange Config.block.cfg.cfgWindow a = false ∧
          firstClaimant Config.block.cfg s a = some Config.block.cfg.dc ∧
          j = dcRegKey Config.block.cfg a k)) →
        rfByte Config.block.cfg t j = rfByte Config.block.cfg s j)

/-- The frame of CWR: only `CS` may change, and of it only bytes `(a + k) mod 256`, k < n, of the function
that the configuration address routes to (R114, R167). -/
def Obligations.ConfigurationWriteFrame : Prop :=
  ∀ (n : Size) (a : Addr) (v : Data) (s : State), Memory.rising 0 s.cs = true →
    ∃ t, exec (.cwr n a v) s = .next t ∧ t = { s with cs := t.cs } ∧
      (∀ f o, (∀ k < bytes n, ¬ (Config.block.cfg.cfgRoute a = some f ∧
          o = BitVec.ofNat 8 (a.toNat + k))) →
        csByte Config.block.cfg t f o = csByte Config.block.cfg s f o)

/-! ### Construction -/

/-- The production-loop state after construction (R32–R36), and the machine's reset state. -/
def Obligations.ConstructionState : Prop :=
  State.reset = State.init Config.block.cfg ∧
  ∀ c : Config,
    (State.init c).mode = (if c.displayEnabled then .starting else .off) ∧
    (State.init c).vsync = c.vsync0 ∧ (State.init c).fullscreen = c.fullscreen0 ∧
    (State.init c).pending = [] ∧ (State.init c).presented = [] ∧
    (State.init c).buf.length = c.width * c.height * 4

/-- At construction every configuration space holds its dump (R27). -/
def Obligations.ConfigurationSpacesHoldTheirDumps : Prop :=
  ∀ (c : Config) (f : FnId) (o : BitVec 8), csByte c (State.init c) f o = c.dump f o

/-- At construction the four strap registers hold their seeds and every other register-file byte holds
`P_RF_INIT` (R29; that the seeds agree where two set one byte is log entry 17). -/
def Obligations.RegisterFileAtConstruction : Prop :=
  ∀ b : Block,
    (∀ p ∈ b.cfg.straps.toList, ∀ k < 4,
      rfByte b.cfg (State.init b.cfg) (p.1 * b.cfg.rfScale + k) = lane32 p.2 k) ∧
    (∀ j, (∀ p ∈ b.cfg.straps.toList, ∀ k < 4, j ≠ p.1 * b.cfg.rfScale + k) →
      rfByte b.cfg (State.init b.cfg) j = b.cfg.rfInit j)

/-- Well-formedness leaves at most one target outside the bridges: two flat registrations that contain
one address are the same entry, and none contains an address of the configuration window (R11 (a)). -/
def Obligations.FlatTargetsAreUnique : Prop :=
  ∀ (b : Block) (a : Addr),
    (∀ i j (hi : i < b.cfg.flat.length) (hj : j < b.cfg.flat.length),
      inRange b.cfg.flat[i].range a = true → inRange b.cfg.flat[j].range a = true → i = j) ∧
    (∀ r ∈ b.cfg.flat, inRange r.range a = true → inRange b.cfg.cfgWindow a = false)

/-! ### Routing -/

/-- The BAR test: inclusive upper bound, all six BARs, no wrap; and the examples of R161 for E1. -/
def Obligations.BarTestIsInclusive : Prop :=
  (∀ (c : Config) (s : State) (f : FnId) (a : Addr), isAddressMapped c s f a = true ↔
    ∃ i < 6, bar c s f i ≤ a.toNat ∧ a.toNat ≤ bar c s f i + c.devSize f) ∧
  isAddressMapped Config.e1 (State.init Config.e1) 0 0x80100000 = true ∧
  isAddressMapped Config.e1 (State.init Config.e1) 0 0x80100001 = false ∧
  isAddressMapped Config.e1 (State.init Config.e1) 0 0x00000010 = true

/-- An address inside the configuration window is a configuration access at that address, whatever BARs
or flat ranges contain it (R110 step 1, R120 (1)). -/
def Obligations.WindowAccessIsConfigurationAccess : Prop :=
  ∀ (c : Config) (s : State) (n : Size) (a : Addr) (v : Data), inRange c.cfgWindow a = true →
    execIn c (.mrd n a) s = execIn c (.crd n a) s ∧ execIn c (.mwr n a v) s = execIn c (.cwr n a v) s

/-- Outside the window the first function in enumeration order whose BARs claim the address gets the
whole access, bridges in registration order: the display controller's register file, or an opaque
device, whose read is a draw (zero above the size: log entry 7) and whose write changes nothing (R120,
R141–R143, R163, R164). -/
def Obligations.FirstClaimantGetsTheAccess : Prop :=
  ∀ (c : Config) (s : State) (n : Size) (a : Addr) (v : Data) (pre post : List FnId) (f : FnId),
    inRange c.cfgWindow a = false → c.bridges.flatten = pre ++ f :: post →
    (∀ g ∈ pre, isAddressMapped c s g a = false) → isAddressMapped c s f a = true →
    (f = c.dc →
      execIn c (.mrd n a) s = .next { s with rdata := s.rdata ++ [dcRegRead c s a n] } ∧
      execIn c (.mwr n a v) s = .next (dcRegWrite c s a v n)) ∧
    (f ≠ c.dc →
      execIn c (.mrd n a) s = .next { s with
        rdata := s.rdata ++ [dataOfLanes n (lane (c.opaqueRead s.draws (.function f) a n))],
        draws := s.draws + 1 } ∧
      execIn c (.mwr n a v) s = .next s)

/-- An address that no function claims goes to the flat device whose half-open range contains it: a read
is a draw, a write changes nothing (R116; zero above the size: log entry 7). -/
def Obligations.FlatRangesComeAfterBars : Prop :=
  ∀ (b : Block) (s : State) (n : Size) (a : Addr) (v : Data) (r : FlatReg), r ∈ b.cfg.flat →
    r.range.base.toNat ≤ a.toNat → a.toNat < r.range.base.toNat + r.range.size.toNat →
    (∀ f ∈ b.cfg.functions, isAddressMapped b.cfg s f a = false) →
    execIn b.cfg (.mrd n a) s = .next { s with
      rdata := s.rdata ++ [dataOfLanes n (lane (b.cfg.opaqueRead s.draws (.flat r.dev) a n))],
      draws := s.draws + 1 } ∧
    execIn b.cfg (.mwr n a v) s = .next s

/-- An unmapped read returns 0 and an unmapped write is dropped: no state changes (R117). -/
def Obligations.UnmappedReadsZeroAndDropsWrites : Prop :=
  ∀ (c : Config) (s : State) (n : Size) (a : Addr) (v : Data), inRange c.cfgWindow a = false →
    (∀ f ∈ c.functions, isAddressMapped c s f a = false) →
    (∀ r ∈ c.flat, inRange r.range a = false) →
    execIn c (.mrd n a) s = .next { s with rdata := s.rdata ++ [0] } ∧
    execIn c (.mwr n a v) s = .next s

/-- A configuration access that routes to no function reads 0 or is dropped (R115). -/
def Obligations.UnroutedConfigurationAccess : Prop :=
  ∀ (c : Config) (s : State) (n : Size) (a : Addr) (v : Data), c.cfgRoute a = none →
    execIn c (.crd n a) s = .next { s with rdata := s.rdata ++ [0] } ∧
    execIn c (.cwr n a v) s = .next s

/-! ### Configuration space -/

/-- A configuration read returns the n bytes at `(o + k) & 0xFF` of the routed function, o the low byte
of the address, lane k the byte at o + k, lanes from n on zero (R144, R166); and the examples of R166
for E1. -/
def Obligations.ConfigurationReadReturnsTheBytes : Prop :=
  (∀ (c : Config) (s : State) (n : Size) (a : Addr) (f : FnId), c.cfgRoute a = some f →
    ∃ v, execIn c (.crd n a) s = .next { s with rdata := s.rdata ++ [v] } ∧
      (∀ k < bytes n, lane v k = csByte c s f (BitVec.ofNat 8 (a.toNat + k))) ∧
      (∀ k, bytes n ≤ k → lane v k = 0)) ∧
  fnConfigRead Config.e1 (State.init Config.e1) 0 0x00 .four = 0x0123ABCD ∧
  fnConfigRead Config.e1 (State.init Config.e1) 0 0xFE .four = 0xABCD0000

/-- A configuration write stores lane k at `(o + k) & 0xFF` of the routed function and changes no other
byte of any configuration space and nothing else (R145, R167); and the example of R167 for E1. -/
def Obligations.ConfigurationWriteStoresTheLanes : Prop :=
  (∀ (c : Config) (s : State) (n : Size) (a : Addr) (v : Data) (f : FnId), c.cfgRoute a = some f →
    Memory.rising 0 s.cs = true →
    ∃ t, execIn c (.cwr n a v) s = .next t ∧ t = { s with cs := t.cs } ∧
      (∀ k < bytes n, csByte c t f (BitVec.ofNat 8 (a.toNat + k)) = lane v k) ∧
      (∀ g o, (g = f → ∀ k < bytes n, o ≠ BitVec.ofNat 8 (a.toNat + k)) →
        csByte c t g o = csByte c s g o)) ∧
  [0x10, 0x11, 0x12, 0x13].map (csByte Config.e1
    (fnConfigWrite Config.e1 (State.init Config.e1) 0 0x10 0x90000000 .four) 0) = [0, 0, 0, 0x90]

/-- What a configuration write stores, a configuration read of the same address and size returns, in
every byte of the 256, read-only bytes there being none (R23, R74). -/
def Obligations.ConfigurationReadBack : Prop :=
  ∀ (c : Config) (s t : State) (n : Size) (a : Addr) (v : Data) (f : FnId), c.cfgRoute a = some f →
    Memory.rising 0 s.cs = true → execIn c (.cwr n a v) s = .next t →
    execIn c (.crd n a) t = .next { t with rdata := t.rdata ++ [dataOfLanes n (lane v)] }

/-- Reprogramming BAR i with a 4-byte configuration write: its value is the written one, no other BAR of
any function changes, and from the next command on the function claims exactly by the new values
(R25, R75, R168). -/
def Obligations.BarReprogrammingIsLive : Prop :=
  ∀ (c : Config) (s : State) (a : Addr) (v : Data) (f : FnId) (i : Nat), c.cfgRoute a = some f →
    i < 6 → a.toNat % 256 = 0x10 + 4 * i → Memory.rising 0 s.cs = true →
    ∃ t, execIn c (.cwr .four a v) s = .next t ∧
      bar c t f i = v.toNat % 2 ^ 32 ∧
      (∀ j < 6, j ≠ i → bar c t f j = bar c s f j) ∧
      (∀ g, g ≠ f → ∀ j < 6, bar c t g j = bar c s g j) ∧
      (∀ x : Addr, isAddressMapped c t f x = true ↔
        (v.toNat % 2 ^ 32 ≤ x.toNat ∧ x.toNat ≤ v.toNat % 2 ^ 32 + c.devSize f) ∨
        ∃ j < 6, j ≠ i ∧ bar c s f j ≤ x.toNat ∧ x.toNat ≤ bar c s f j + c.devSize f)

/-! ### Register file -/

/-- The register index is the masked address divided by 4, in range; so address bits 1..0 and the bits
above the mask have no effect; its offset is index × scale (R169). -/
def Obligations.RegisterIndexMasksTheAddress : Prop :=
  ∀ (b : Block) (a : Addr),
    dcRegIndex b.cfg a = a.toNat % b.cfg.rfSize / 4 ∧ dcRegIndex b.cfg a < b.cfg.rfSize / 4 ∧
    dcRegOffset b.cfg a = dcRegIndex b.cfg a * b.cfg.rfScale ∧
    (∀ x : Addr, x.toNat / 4 % (b.cfg.rfSize / 4) = a.toNat / 4 % (b.cfg.rfSize / 4) →
      dcRegIndex b.cfg x = dcRegIndex b.cfg a)

/-- DCRegRead: an entry of `P_OVERRIDES` for the index replaces the whole result by its zero-extended
sentinel for every size; if the index is no key, lane k is `RF[(off + k) mod P_RF_SIZE]` for k < n and
zero above (R170, R172); `overrideAt` is that table as a map (that each key stands once in it is log
entry 17); and the example of R170 for E1. -/
def Obligations.RegisterReadOrSentinel : Prop :=
  (∀ (b : Block) (s : State) (a : Addr) (n : Size),
    (∀ v, (dcRegIndex b.cfg a, v) ∈ b.cfg.overrides → dcRegRead b.cfg s a n = v.setWidth 64) ∧
    ((∀ v, (dcRegIndex b.cfg a, v) ∉ b.cfg.overrides) →
      (∀ k < bytes n,
        lane (dcRegRead b.cfg s a n) k = rfByte b.cfg s ((dcRegOffset b.cfg a + k) % b.cfg.rfSize)) ∧
      ∀ k, bytes n ≤ k → lane (dcRegRead b.cfg s a n) k = 0)) ∧
  (∀ (b : Block) (i : Nat) (v : BitVec 32), overrideAt b.cfg i = some v ↔ (i, v) ∈ b.cfg.overrides) ∧
  (∀ (c : Config) (s : State) (a : Addr) (n : Size),
    (∀ v, overrideAt c (dcRegIndex c a) = some v → dcRegRead c s a n = v.setWidth 64) ∧
    (overrideAt c (dcRegIndex c a) = none →
      (∀ k < bytes n,
        lane (dcRegRead c s a n) k = rfByte c s ((dcRegOffset c a + k) % c.rfSize)) ∧
      ∀ k, bytes n ≤ k → lane (dcRegRead c s a n) k = 0)) ∧
  dcRegRead Config.e1 (State.init Config.e1) 0x80000400 .eight = 0x2222000011110000

/-- DCRegWrite: lane k goes to `RF[(off + k) mod P_RF_SIZE]`, override or not, and no other byte of `RF`
and nothing else changes (R171, R174); and the example of R171 for E1. -/
def Obligations.RegisterWriteStoresTheLanes : Prop :=
  (∀ (b : Block) (s : State) (a : Addr) (v : Data) (n : Size), Memory.rising 0 s.rf = true →
    dcRegWrite b.cfg s a v n = { s with rf := (dcRegWrite b.cfg s a v n).rf } ∧
    (∀ k < bytes n, rfByte b.cfg (dcRegWrite b.cfg s a v n)
      ((dcRegOffset b.cfg a + k) % b.cfg.rfSize) = lane v k) ∧
    (∀ j, (∀ k < bytes n, j ≠ (dcRegOffset b.cfg a + k) % b.cfg.rfSize) →
      rfByte b.cfg (dcRegWrite b.cfg s a v n) j = rfByte b.cfg s j)) ∧
  [0x281C, 0x281D, 0x281E, 0x281F].map (rfByte Config.e1
    (dcRegWrite Config.e1 (State.init Config.e1) 0x8000281C 0xDEADBEEF .four)) =
      [0xEF, 0xBE, 0xAD, 0xDE]

/-- Writing the register with index 0xA07 and reading it back returns 0x02000000, whatever and however
much was written and read; with scale 4 its byte offset is 0x281C (R173). -/
def Obligations.StatusRegisterReadsItsSentinel : Prop :=
  ∀ (b : Block) (s : State) (a : Addr) (v : Data) (m n : Size),
    inRange b.cfg.cfgWindow a = false → firstClaimant b.cfg s a = some b.cfg.dc →
    dcRegIndex b.cfg a = 0xA07 →
    ∃ t, execIn b.cfg (.mwr m a v) s = .next t ∧
      execIn b.cfg (.mrd n a) t = .next { t with rdata := t.rdata ++ [0x02000000] } ∧
      (b.cfg.rfScale = 4 → dcRegOffset b.cfg a = 0x281C)

/-- A register without an override reads back what was last written to it, strap registers included
(R74, R175). -/
def Obligations.RegisterReadBack : Prop :=
  ∀ (b : Block) (s : State) (a : Addr) (v : Data) (n : Size),
    inRange b.cfg.cfgWindow a = false → firstClaimant b.cfg s a = some b.cfg.dc →
    overrideAt b.cfg (dcRegIndex b.cfg a) = none → Memory.rising 0 s.rf = true →
    ∃ t, execIn b.cfg (.mwr n a v) s = .next t ∧
      execIn b.cfg (.mrd n a) t = .next { t with rdata := t.rdata ++ [dataOfLanes n (lane v)] }

/-! ### Widths and whole-machine rules of the bus path -/

/-- Lanes n..7 of a write's data affect nothing (R95). -/
def Obligations.UnusedWriteLanesAffectNothing : Prop :=
  ∀ (c : Config) (s : State) (n : Size) (a : Addr) (v w : Data),
    (∀ k < bytes n, lane v k = lane w k) →
    execIn c (.mwr n a v) s = execIn c (.mwr n a w) s ∧
    execIn c (.cwr n a v) s = execIn c (.cwr n a w) s

/-- A read result has zero lanes from n on, except on an override hit: outside the window, claimed first
by the display controller, at an index with an override (R67, R95, R110; for an opaque device
this is the model's reading, log entry 7). -/
def Obligations.ReadResultsFitTheirSize : Prop :=
  ∀ (c : Config) (s : State) (n : Size) (a : Addr),
    (∃ v d, execIn c (.mrd n a) s = .next { s with rdata := s.rdata ++ [v], draws := d } ∧
      ((∀ k, bytes n ≤ k → lane v k = 0) ∨
        (inRange c.cfgWindow a = false ∧ firstClaimant c s a = some c.dc ∧
          (overrideAt c (dcRegIndex c a)).isSome = true))) ∧
    (∃ v, execIn c (.crd n a) s = .next { s with rdata := s.rdata ++ [v] } ∧
      ∀ k, bytes n ≤ k → lane v k = 0)

/-- Repeating a read that took no draw of an opaque device returns the same value (R70). -/
def Obligations.ReadsAreRepeatable : Prop :=
  ∀ (c : Config) (s t : State) (n : Size) (a : Addr),
    (execIn c (.mrd n a) s = .next t → t.draws = s.draws →
      ∃ v, t.rdata = s.rdata ++ [v] ∧
        execIn c (.mrd n a) t = .next { t with rdata := t.rdata ++ [v] }) ∧
    (execIn c (.crd n a) s = .next t →
      ∃ v, t.rdata = s.rdata ++ [v] ∧
        execIn c (.crd n a) t = .next { t with rdata := t.rdata ++ [v] })

/-- What may change each memory: `CS` only a CWR or an MWR inside the window, `RF` only an MWR outside it
that the display controller claims, main memory only the other agents (R42, R68, R119, R176). -/
def Obligations.OnlyNamedCommandsWriteEachMemory : Prop :=
  ∀ (c : Config) (s t : State), stepIn c s = .next t →
    (t.cs ≠ s.cs → ∃ tr n a v rest, s.inputs = .command tr :: rest ∧
      (decode tr = .ok (.cwr n a v) ∨
        (decode tr = .ok (.mwr n a v) ∧ inRange c.cfgWindow a = true))) ∧
    (t.rf ≠ s.rf → ∃ tr n a v rest, s.inputs = .command tr :: rest ∧ decode tr = .ok (.mwr n a v) ∧
      inRange c.cfgWindow a = false ∧ isAddressMapped c s c.dc a = true) ∧
    (t.mem ≠ s.mem → ∃ ws rest, s.inputs = .loop ws :: rest ∨ s.inputs = .memory ws :: rest)

/-- No bus command touches the production loop's state, and a signal touches only its queue (R42, R222). -/
def Obligations.CommandsLeaveTheLoopAlone : Prop :=
  ∀ (c : Config) (i : Instr) (s t : State), execIn c i s = .next t →
    t.mode = s.mode ∧ t.vsync = s.vsync ∧ t.fullscreen = s.fullscreen ∧ t.buf = s.buf ∧
    t.presented = s.presented ∧ t.opLog = s.opLog ∧ t.mem = s.mem ∧ t.inputs = s.inputs ∧
    (t.pending ≠ s.pending → (i = .sigVsync ∨ i = .sigFullscreen ∨ i = .sigQuit) ∧
      t.cs = s.cs ∧ t.rf = s.rf ∧ t.rdata = s.rdata ∧ t.draws = s.draws)

/-! ### Production loop -/

/-- Poll: each posted toggle inverts its bit once, so the bits change by the parity of the posted
toggles; the queue is emptied; a quit stops the loop; nothing else changes; and the frame in which a quit
is polled has been presented (R232). -/
def Obligations.PollAppliesEverySignalOnce : Prop :=
  (∀ s : State, poll s =
    { s with
      vsync := s.vsync ^^ decide (s.pending.count .vsync % 2 = 1)
      fullscreen := s.fullscreen ^^ decide (s.pending.count .fullscreen % 2 = 1)
      pending := []
      mode := if Signal.quit ∈ s.pending then .stopped else s.mode }) ∧
  (∀ (c : Config) (ws : List (Addr × Byte)) (s : State), Signal.quit ∈ s.pending →
    (frameStep c ws s).mode = .stopped ∧
    ∃ frame, (frameStep c ws s).presented = s.presented ++ [frame])

/-- AcquireStep: in mode Starting the loop's turn makes it Running, or Failed with a line in the operator
log, as the presentation boundary's answer (a draw) says; nothing else of the block changes (R221). Main
memory is left as the other agents' writes of that turn leave it (log entry 21); without inputs the loop
takes its turn on its own (log entry 4). -/
def Obligations.AcquireStepObeysTheBoundary : Prop :=
  ∀ (c : Config) (s : State) (ws : List (Addr × Byte)) (rest : List Input), s.mode = .starting →
    loopIsNext s ws rest →
    ∃ m, stepIn c s = .next (if c.surfaceAcquired s.draws then
        { s with inputs := rest, mode := .running, draws := s.draws + 1, mem := m }
      else
        { s with inputs := rest, mode := .failed, draws := s.draws + 1, mem := m,
                 opLog := s.opLog ++ [.productionLoopInitializationFailure] }) ∧
      (ws = [] → m = s.mem) ∧
      (Memory.rising 0 s.mem = true → ∀ a, Memory.read c.memInit m a = lastWritten c s ws a)

/-- Off, Stopped and Failed are final for the loop: no step of the machine changes the mode, presents a
frame or touches the loop's other state, while the commands still run (R220, R222, R237). -/
def Obligations.DormantLoopStaysDormant : Prop :=
  ∀ (c : Config) (s t : State), s.mode = .off ∨ s.mode = .stopped ∨ s.mode = .failed →
    stepIn c s = .next t →
    t.mode = s.mode ∧ t.presented = s.presented ∧ t.vsync = s.vsync ∧ t.fullscreen = s.fullscreen ∧
    t.pending = s.pending ∧ t.buf = s.buf ∧ t.opLog = s.opLog

/-- A frame step in mode Running presents exactly one frame, and it shows every display pixel: pixel
(x, y) is the repacked source pixel at `P_FB_BASE + tileOffset(P_W, stdOffset(x, y))`, B, G, R, A from
the lowest address on, at `stdOffset(x, P_H − 1 − y)` (R224, R225, R228). The frame is rendered and
presented before the poll, and nothing else changes (R223), but for main memory, which is left as the other agents'
writes of that turn leave it; without inputs the loop takes its turn on its own (log entry 4). -/
def Obligations.FrameShowsEveryPixel : Prop :=
  ∀ (c : Config) (s : State) (ws : List (Addr × Byte)) (rest : List Input), s.mode = .running →
    loopIsNext s ws rest → s.buf.length = c.width * c.height * 4 →
    ∃ t frame m, stepIn c s = .next t ∧ t.presented = s.presented ++ [frame] ∧ t.buf = frame ∧
      t = poll { s with
        inputs := rest
        buf := frame
        presented := s.presented ++ [frame]
        mem := m
        draws := s.draws + 1 } ∧
      (Memory.rising 0 s.mem = true → ∀ a, Memory.read c.memInit m a = lastWritten c s ws a) ∧
      frame.length = c.width * c.height * 4 ∧
      ∀ x y, x < c.width → y < c.height →
        let src := c.fbWindow.base.toNat + tileOffset c.width (stdOffset c.width x y)
        (frame.drop (stdOffset c.width x (c.height - 1 - y))).take 4 =
          Pixel.toList (c.repack ⟨oracleByte c s ws src, oracleByte c s ws (src + 1),
            oracleByte c s ws (src + 2), oracleByte c s ws (src + 3)⟩)

/-- If main memory is not written during a frame step, the frame shows what main memory holds (R79,
R229); so it does when no input is left and the loop takes its turn on its own (R240, log entry 4). -/
def Obligations.QuietFrameShowsMainMemory : Prop :=
  ∀ (c : Config) (s : State) (rest : List Input), s.mode = .running → loopIsNext s [] rest →
    ∃ t, stepIn c s = .next t ∧ t.mem = s.mem ∧
      t.presented = s.presented ++ [renderFrame c (memByte c s) s.buf]

/-- The pixels of a frame may be processed in any order: every order gives the same buffer (R223, R229). -/
def Obligations.PixelOrderIsUnobservable : Prop :=
  ∀ (c : Config) (rd : Nat → Byte) (buf : List Byte) (order : List (Nat × Nat)),
    order.Perm (pixels c) → order.foldl (pixelStep c rd) buf = renderFrame c rd buf

/-- Every byte of the buffer is rebuilt in every frame: what it held before is not observable (R35). -/
def Obligations.FrameDoesNotDependOnTheOldBuffer : Prop :=
  ∀ (c : Config) (rd : Nat → Byte) (buf buf' : List Byte), buf.length = c.width * c.height * 4 →
    buf'.length = c.width * c.height * 4 → renderFrame c rd buf = renderFrame c rd buf'

/-- The loop never reads outside the framebuffer window: two main memories that agree on
`[P_FB_BASE, P_FB_BASE + P_FB_SIZE)` give the same frame (R68, R205, R224). -/
def Obligations.FrameReadsOnlyTheWindow : Prop :=
  ∀ (b : Block) (rd rd' : Nat → Byte) (buf : List Byte),
    (∀ j < b.cfg.fbWindow.size.toNat,
      rd (b.cfg.fbWindow.base.toNat + j) = rd' (b.cfg.fbWindow.base.toNat + j)) →
    renderFrame b.cfg rd buf = renderFrame b.cfg rd' buf

/-- The oracle answers each byte with what main memory holds or with a value written there while the
frame was read; a byte that nobody writes meanwhile reads as main memory holds it (R79). -/
def Obligations.OracleAnswersOldOrNew : Prop :=
  ∀ (c : Config) (s : State) (ws : List (Addr × Byte)) (a : Nat),
    (oracleByte c s ws a = memByte c s a ∨ ∃ w ∈ ws, w.1.toNat = a ∧ oracleByte c s ws a = w.2) ∧
    ((∀ w ∈ ws, w.1.toNat ≠ a) → oracleByte c s ws a = memByte c s a)

/-- No tearing is excluded: for every choice, byte by byte, of an old or a new value there is a draw with
which the oracle answers it (R76, R79, R229). -/
def Obligations.EveryTearingIsPossible : Prop :=
  ∀ (c : Config) (s : State) (ws : List (Addr × Byte)) (pick : Nat → Byte),
    (∀ a, pick a = memByte c s a ∨ ∃ w ∈ ws, w.1.toNat = a ∧ pick a = w.2) →
    ∃ tear, ∀ a, oracleByte { c with tear := tear } s ws a = pick a

/-- The loop neither reads nor writes `CS` or `RF`: with other contents there, its turn does the same to
everything else and leaves them as they are (R238). -/
def Obligations.LoopIgnoresTheRegisters : Prop :=
  ∀ (c : Config) (s : State) (ws : List (Addr × Byte)) (cs rf : Memory),
    loopTurn c ws { s with cs := cs, rf := rf } = { loopTurn c ws s with cs := cs, rf := rf }

/-- `PL.vsync` and `PL.fullscreen` influence no computed value: states that differ in nothing else step
alike, up to these two bits (R236). -/
def Obligations.TogglesAffectNoValue : Prop :=
  ∀ (c : Config) (s : State) (v f : Bool),
    (∀ t, stepIn c s = .next t →
      ∃ v' f', stepIn c { s with vsync := v, fullscreen := f } =
        .next { t with vsync := v', fullscreen := f' }) ∧
    (∀ r, stepIn c s = .fault r → stepIn c { s with vsync := v, fullscreen := f } = .fault r) ∧
    (∀ r, stepIn c s = .refused r → stepIn c { s with vsync := v, fullscreen := f } = .refused r)

/-- A quit posted in mode Running takes effect at the next frame step, after that frame has been
presented (R235, R294). -/
def Obligations.QuitStopsAfterTheNextFrame : Prop :=
  ∀ (c : Config) (s : State) (ws : List (Addr × Byte)) (rest : List Input), s.mode = .running →
    s.inputs = .command (.signal 0x82) :: .loop ws :: rest →
    ∃ t u frame, stepIn c s = .next t ∧ t.mode = .running ∧ t.presented = s.presented ∧
      stepIn c t = .next u ∧ u.mode = .stopped ∧ u.presented = s.presented ++ [frame] ∧ u.pending = []

/-- A run is over exactly when nothing is presented any more and the loop is Off, Stopped or Failed; the
machine has no other fault (R237, R240; that the loop steps on its own without an input is log entry 4). -/
def Obligations.RunOverExactlyWhenNothingCanStep : Prop :=
  ∀ (c : Config) (s : State) (r : Fault), stepIn c s = .fault r ↔
    r = .runOver ∧ s.inputs = [] ∧ (s.mode = .off ∨ s.mode = .stopped ∨ s.mode = .failed)

/-- What was handed out is never changed: frames, read results and log lines are only appended, at most
one of each in a step. For frames this is R36 and R226; that the read results of R90 and the operator log
of R252 are lists that only grow is the model's choice (log entries 5 and 16). -/
def Obligations.OutputsOnlyGrow : Prop :=
  ∀ (c : Config) (s t : State), stepIn c s = .next t →
    (∃ l, t.presented = s.presented ++ l ∧ l.length ≤ 1) ∧
    (∃ l, t.rdata = s.rdata ++ l ∧ l.length ≤ 1) ∧ (∃ l, t.opLog = s.opLog ++ l ∧ l.length ≤ 1)

/-! ### Infinite runs and weak fairness -/

/-- The machine performs every part of every run: with the run's next n events as its inputs, n steps
lead to the run's state n moments later (R256); and the machine of the host's interface is that of the
opaque block. The lists of inputs are the model's (log entry 2). -/
def Obligations.MachinePerformsEveryPartOfARun : Prop :=
  Sys2Proof.core = coreIn Config.block.cfg ∧
  ∀ (c : Config) (r : Run c) (k n : Nat) (rest : List Input),
    Host.Core.run (coreIn c) n
        ({ r.state k with inputs := (List.range n).map (fun j => r.event (k + j)) ++ rest } : State) =
      .next ({ r.state (k + n) with inputs := rest } : State)

/-- In every weakly fair run a Starting loop gets its answer, a Running loop presents its next frame, a
posted quit stops the loop (unless no surface is acquired), and while a command that decodes is the
oldest on its port the bus-dispatch path takes a step (R256, R296, D47; how commands wait on their
ports is log entry 2). -/
def Obligations.FairRunsMakeProgress : Prop :=
  ∀ (c : Config) (r : Run c), weaklyFair r → ∀ k,
    ((r.state k).mode = .starting →
      ∃ j, k ≤ j ∧ ((r.state j).mode = .running ∨ (r.state j).mode = .failed)) ∧
    ((r.state k).mode = .running →
      ∃ j frame, k ≤ j ∧ (r.state j).presented = (r.state k).presented ++ [frame]) ∧
    ((r.state k).mode = .starting ∨ (r.state k).mode = .running → Signal.quit ∈ (r.state k).pending →
      ∃ j, k ≤ j ∧ ((r.state j).mode = .stopped ∨ (r.state j).mode = .failed)) ∧
    (∀ p t i, (r.waiting p k).head? = some t → decode t = .ok i → ∃ j, k ≤ j ∧ busSteps r j)

/-! ### Tile transform -/

/-- The index within a block is the permutation of ten bits of R202, its terms on disjoint bits, below
1024, and determines column and row within the block. -/
def Obligations.TileIndexPermutesTenBits : Prop :=
  (∀ row col : Nat, interleave row col =
    (col &&& 3) ||| ((row &&& 1) <<< 2) ||| ((col &&& 28) <<< 1) ||| ((row &&& 30) <<< 5)) ∧
  (∀ row col : Nat,
    let t := interleave row col ^^^ ((row &&& 8) <<< 2)
    t < 1024 ∧ t.testBit 0 = col.testBit 0 ∧ t.testBit 1 = col.testBit 1 ∧
    t.testBit 2 = row.testBit 0 ∧ t.testBit 3 = col.testBit 2 ∧ t.testBit 4 = col.testBit 3 ∧
    t.testBit 5 = (col.testBit 4 ^^ row.testBit 3) ∧ t.testBit 6 = row.testBit 1 ∧
    t.testBit 7 = row.testBit 2 ∧ t.testBit 8 = row.testBit 3 ∧ t.testBit 9 = row.testBit 4) ∧
  (∀ row col row' col' : Nat,
    interleave row col ^^^ ((row &&& 8) <<< 2) = interleave row' col' ^^^ ((row' &&& 8) <<< 2) →
    row % 32 = row' % 32 ∧ col % 32 = col' % 32)

/-- Each 32 × 32 block occupies 1024 consecutive slots, from its block base on, at the index its row and
column within the block give (R203). -/
def Obligations.TileSlotIsBlockBasePlusIndex : Prop :=
  ∀ width row col : Nat, tileSlot width row col =
    32 * (row / 32) * width + 1024 * (col / 32) +
      (interleave (row % 32) (col % 32) ^^^ ((row % 32 &&& 8) <<< 2)) ∧
    interleave (row % 32) (col % 32) ^^^ ((row % 32 &&& 8) <<< 2) < 1024

/-- The transform ignores the two low bits of the byte address and its result is a multiple of 4 (R201). -/
def Obligations.TileOffsetFloorsTheAddress : Prop :=
  ∀ width byteAddr : Nat,
    tileOffset width byteAddr = tileOffset width (byteAddr / 4 * 4) ∧ tileOffset width byteAddr % 4 = 0

/-- Every source offset of a frame lies in the padded frame, and the two numbers of R205 for 1280 × 720. -/
def Obligations.TileOffsetStaysInThePaddedFrame : Prop :=
  (∀ width height x y : Nat, width % 32 = 0 → x < width → y < height →
    tileOffset width (stdOffset width x y) ≤ (width * (32 * ((height + 31) / 32)) - 1) * 4) ∧
  (∃ x y, x < 1280 ∧ y < 720 ∧ tileOffset 1280 (stdOffset 1280 x y) = 0x3977FC) ∧
  1280 * 720 * 4 ≤ 0x3977FC ∧ 0x3977FC < 1280 * 736 * 4

/-- For a width that is a multiple of 32, pixel to tiled slot is injective on all rows, and maps the
padded frame onto its slots; for width 48 it leaves the frame, and a block of such a width is refused
(R204). -/
def Obligations.TileTransformIsABijection : Prop :=
  (∀ width x y x' y' : Nat, width % 32 = 0 → x < width → x' < width →
    tileOffset width (stdOffset width x y) / 4 = tileOffset width (stdOffset width x' y') / 4 →
    x = x' ∧ y = y') ∧
  (∀ width bands : Nat, width % 32 = 0 →
    (∀ x y, x < width → y < 32 * bands →
      tileOffset width (stdOffset width x y) / 4 < width * (32 * bands)) ∧
    (∀ p < width * (32 * bands), ∃ x y, x < width ∧ y < 32 * bands ∧
      tileOffset width (stdOffset width x y) / 4 = p)) ∧
  (∃ x y, x < 48 ∧ y < 32 ∧ tileOffset 48 (stdOffset 48 x y) = 8188) ∧ 48 * 32 * 4 ≤ 8188 ∧
  (∀ c : Config, c.width % 32 ≠ 0 → ¬ c.WellFormed)

/-- `untileOffset` undoes `tileOffset` on every pixel (R206, R207). -/
def Obligations.UntileUndoesTile : Prop :=
  ∀ width x y : Nat, width % 32 = 0 → x < width →
    untileOffset width (tileOffset width (stdOffset width x y)) = stdOffset width x y

/-! ### The invariant -/

/-- Construction establishes the invariant (R281). -/
def Obligations.ConstructionIsGood : Prop :=
  (∀ b : Block, State.Inv b.cfg (State.init b.cfg)) ∧ State.Inv Config.block.cfg State.reset

/-- Every step of every well-formed block keeps the invariant, from every state that has it, and so does
every step of the machine. -/
def Obligations.EveryStepKeepsTheInvariant : Prop :=
  (∀ (b : Block) (s t : State), State.Inv b.cfg s → stepIn b.cfg s = .next t → State.Inv b.cfg t) ∧
  (∀ s t : State, State.Inv Config.block.cfg s → step s = .next t → State.Inv Config.block.cfg t)
end

