-- ==== Sys2Proof/Laws/Data.lean ====
section
/-! SUPPORT. Byte lanes and little-endian values: what `leNat` and `dataOfLanes` hold. -/

namespace Sys2Proof.Machine

/-- A little-endian number of n bytes is below `256^n`. -/
theorem leNat_lt (bs : List Byte) : leNat bs < 256 ^ bs.length := by
  induction bs with
  | nil => simp [leNat]
  | cons b bs ih =>
    have hb := b.isLt
    simp only [leNat, List.length_cons, Nat.pow_succ]
    omega

/-- Byte k of a little-endian number is its k-th byte, and 0 past the end. -/
theorem leNat_byte (bs : List Byte) (k : Nat) :
    leNat bs / 256 ^ k % 256 = (bs[k]?.map BitVec.toNat).getD 0 := by
  induction bs generalizing k with
  | nil => simp [leNat]
  | cons b bs ih =>
    have hb := b.isLt
    cases k with
    | zero => simp only [leNat, Nat.pow_zero, Nat.div_one, List.getElem?_cons_zero, Option.map_some,
        Option.getD_some]; omega
    | succ k =>
      rw [Nat.pow_succ, Nat.mul_comm (256 ^ k), ← Nat.div_div_eq_div_mul]
      have : leNat (b :: bs) / 256 = leNat bs := by simp only [leNat]; omega
      rw [this, ih, List.getElem?_cons_succ]

/-- A size is at most eight bytes. -/
theorem bytes_le (n : Size) : bytes n ≤ 8 := by cases n <;> decide

/-- A size is at least one byte. -/
theorem bytes_pos (n : Size) : 0 < bytes n := by cases n <;> decide

/-- Lane k as a natural: byte k of the value. -/
theorem lane_toNat (v : Data) (k : Nat) : (lane v k).toNat = v.toNat / 256 ^ k % 256 := by
  simp only [lane, BitVec.extractLsb'_toNat, Nat.shiftRight_eq_div_pow, Nat.pow_mul]

/-- The natural a data value of n lanes stands for. -/
theorem dataOfLanes_toNat (n : Size) (b : Nat → Byte) :
    (dataOfLanes n b).toNat = leNat ((List.range (bytes n)).map b) := by
  have h := leNat_lt ((List.range (bytes n)).map b)
  rw [List.length_map, List.length_range] at h
  have h8 : 256 ^ bytes n ≤ 256 ^ 8 := Nat.pow_le_pow_right (by decide) (bytes_le n)
  simp only [dataOfLanes, BitVec.toNat_ofNat]
  exact Nat.mod_eq_of_lt (by omega)

/-- Lane k of a value of n lanes: the given byte below n, zero from n on (R64, R67). -/
theorem lane_dataOfLanes (n : Size) (b : Nat → Byte) (k : Nat) :
    lane (dataOfLanes n b) k = if k < bytes n then b k else 0 := by
  apply BitVec.eq_of_toNat_eq
  rw [lane_toNat, dataOfLanes_toNat, leNat_byte]
  by_cases hk : k < bytes n
  · simp [hk]
  · simp [hk]

/-- A data value is determined by its eight lanes. -/
theorem data_ext {v w : Data} (h : ∀ k < 8, lane v k = lane w k) : v = w := by
  apply BitVec.eq_of_getLsbD_eq
  intro i hi
  have hk := congrArg (fun b : Byte => b.getLsbD (i % 8)) (h (i / 8) (by omega))
  have h8 : i % 8 < 8 := Nat.mod_lt _ (by decide)
  have hi' : 8 * (i / 8) + i % 8 = i := by omega
  simpa [lane, BitVec.getLsbD_extractLsb', h8, hi'] using hk

end Sys2Proof.Machine
end

