-- ==== Sys2Proof/Laws/Memory.lean ====
section
/-! SUPPORT. The laws of the sparse memory: read after write, the canonical form is kept by every
operation, and equal contents are equal data. -/

namespace Sys2Proof.Machine

variable {dflt : Nat → Byte}

/-- All keys of a rising memory are at least its bound. -/
theorem Memory.rising_le {m : Memory} {lo : Nat} (h : Memory.rising lo m = true) :
    ∀ p ∈ m, lo ≤ p.1 := by
  induction m generalizing lo with
  | nil => simp
  | cons q m ih =>
    simp only [Memory.rising, Bool.and_eq_true, decide_eq_true_eq] at h
    intro p hp
    rcases List.mem_cons.1 hp with rfl | hp
    · exact h.1
    · have := ih h.2 p hp; omega

/-- A rising memory rises from any lower bound. -/
theorem Memory.rising_mono {m : Memory} {lo lo' : Nat} (hl : lo' ≤ lo)
    (h : Memory.rising lo m = true) : Memory.rising lo' m = true := by
  cases m with
  | nil => rfl
  | cons q m =>
    simp only [Memory.rising, Bool.and_eq_true, decide_eq_true_eq] at h ⊢
    exact ⟨by omega, h.2⟩

/-- A key below every listed key reads as its reset content. -/
theorem Memory.read_of_lt {m : Memory} {lo a : Nat} (h : Memory.rising lo m = true) (ha : a < lo) :
    Memory.read dflt m a = dflt a := by
  induction m generalizing lo with
  | nil => rfl
  | cons q m ih =>
    simp only [Memory.rising, Bool.and_eq_true, decide_eq_true_eq] at h
    rw [Memory.read, if_neg (by omega)]
    exact ih h.2 (by omega)

/-- Reading through an entry. -/
theorem Memory.read_entry (m : Memory) (a : Nat) (b : Byte) (k : Nat)
    (h : Memory.read dflt m a = dflt a) :
    Memory.read dflt (Memory.entry dflt a b m) k = if k = a then b else Memory.read dflt m k := by
  unfold Memory.entry
  by_cases hk : k = a
  · subst hk
    by_cases hb : b = dflt k
    · simp [hb, h]
    · simp [hb, Memory.read]
  · rw [if_neg hk]
    split
    · rfl
    · rw [Memory.read, if_neg (Ne.symm hk)]

/-- Read after write: the written byte at the key, every other key as before. -/
theorem Memory.read_write {m : Memory} {lo : Nat} (h : Memory.rising lo m = true) (a : Nat) (b : Byte)
    (k : Nat) :
    Memory.read dflt (Memory.write dflt m a b) k = if k = a then b else Memory.read dflt m k := by
  induction m generalizing lo with
  | nil => exact Memory.read_entry [] a b k rfl
  | cons q m ih =>
    obtain ⟨x, c⟩ := q
    have hr := h
    simp only [Memory.rising, Bool.and_eq_true, decide_eq_true_eq] at h
    rw [Memory.write]
    split
    · rename_i hlt
      refine Memory.read_entry _ a b k ?_
      rw [Memory.read, if_neg (by omega)]
      exact Memory.read_of_lt h.2 (by omega)
    · split
      · rename_i heq
        subst heq
        rw [Memory.read_entry _ a b k (Memory.read_of_lt h.2 (by omega))]
        by_cases hk : k = a
        · simp [hk]
        · simp [hk, Memory.read, Ne.symm hk]
      · rename_i hne
        by_cases hx : x = k
        · subst hx
          simp [Memory.read, Ne.symm hne]
        · simp only [Memory.read, if_neg hx]
          exact ih h.2

/-- A write lists no key but its own beside those listed before. -/
theorem Memory.mem_write {m : Memory} {a : Nat} {b : Byte} {p : Host.Cell}
    (h : p ∈ Memory.write dflt m a b) : p = (a, b) ∨ p ∈ m := by
  induction m with
  | nil =>
    simp only [Memory.write, Memory.entry] at h
    split at h <;> simp_all
  | cons q m ih =>
    simp only [Memory.write, Memory.entry] at h
    split at h
    · split at h
      · exact .inr h
      · exact (List.mem_cons.1 h)
    · split at h
      · split at h
        · exact .inr (List.mem_cons_of_mem _ h)
        · rcases List.mem_cons.1 h with h | h
          · exact .inl h
          · exact .inr (List.mem_cons_of_mem _ h)
      · rcases List.mem_cons.1 h with h | h
        · exact .inr (by simp [h])
        · rcases ih h with h | h
          · exact .inl h
          · exact .inr (List.mem_cons_of_mem _ h)

/-- A write keeps the keys rising. -/
theorem Memory.rising_write {m : Memory} {lo a : Nat} {b : Byte} (hlo : lo ≤ a)
    (h : Memory.rising lo m = true) : Memory.rising lo (Memory.write dflt m a b) = true := by
  induction m generalizing lo with
  | nil =>
    simp only [Memory.write, Memory.entry]
    split <;> simp [Memory.rising, hlo]
  | cons q m ih =>
    obtain ⟨x, c⟩ := q
    have hr := h
    simp only [Memory.rising, Bool.and_eq_true, decide_eq_true_eq] at h
    simp only [Memory.write, Memory.entry]
    split
    · split
      · exact hr
      · simp only [Memory.rising, Bool.and_eq_true, decide_eq_true_eq]
        exact ⟨hlo, by omega, h.2⟩
    · split
      · split
        · exact Memory.rising_mono (by omega) h.2
        · simp only [Memory.rising, Bool.and_eq_true, decide_eq_true_eq]
          exact ⟨hlo, Memory.rising_mono (by omega) h.2⟩
      · simp only [Memory.rising, Bool.and_eq_true, decide_eq_true_eq]
        exact ⟨h.1, ih (by omega) h.2⟩

/-- The canonical form, taken apart. -/
theorem Memory.wf_iff {m : Memory} : Memory.wf dflt m = true ↔
    Memory.rising 0 m = true ∧ ∀ p ∈ m, p.2 ≠ dflt p.1 := by
  simp [Memory.wf, List.all_eq_true]

/-- Writing what an unlisted key reads as lists nothing for the key. -/
theorem Memory.not_mem_write_reset {m : Memory} {lo a : Nat} (h : Memory.rising lo m = true) :
    (a, dflt a) ∉ Memory.write dflt m a (dflt a) := by
  induction m generalizing lo with
  | nil => simp [Memory.write, Memory.entry]
  | cons q m ih =>
    obtain ⟨x, c⟩ := q
    simp only [Memory.rising, Bool.and_eq_true, decide_eq_true_eq] at h
    have hle := Memory.rising_le h.2
    have hnot : x ≥ a → (a, dflt a) ∉ m := fun hx hm => by
      have := hle _ hm
      simp only at this
      omega
    simp only [Memory.write, Memory.entry, if_true]
    split
    · simp only [List.mem_cons, Prod.mk.injEq, not_or]
      exact ⟨by omega, hnot (by omega)⟩
    · split
      · exact hnot (by omega)
      · simp only [List.mem_cons, Prod.mk.injEq, not_or]
        exact ⟨by omega, ih h.2⟩

/-- A write keeps the canonical form. -/
theorem Memory.wf_write {m : Memory} (h : Memory.wf dflt m = true) (a : Nat) (b : Byte) :
    Memory.wf dflt (Memory.write dflt m a b) = true := by
  rw [Memory.wf_iff] at h ⊢
  refine ⟨Memory.rising_write (Nat.zero_le a) h.1, fun p hp => ?_⟩
  rcases Memory.mem_write hp with rfl | hm
  · intro he
    replace he : b = dflt a := he
    subst he
    exact Memory.not_mem_write_reset h.1 hp
  · exact h.2 p hm

/-- Writing lanes keeps the canonical form. -/
theorem Memory.wf_writeLanes {m : Memory} (h : Memory.wf dflt m = true) (key : Nat → Nat) (v : Data)
    (n : Nat) : Memory.wf dflt (Memory.writeLanes dflt key v n m) = true := by
  induction n with
  | zero => exact h
  | succ n ih => exact Memory.wf_write ih _ _

/-- Writing a list of bytes one after the other keeps the canonical form. -/
theorem Memory.wf_foldl_write {α : Type} (key : α → Nat) (byte : α → Byte) (l : List α) {m : Memory}
    (h : Memory.wf dflt m = true) :
    Memory.wf dflt (l.foldl (fun m w => Memory.write dflt m (key w) (byte w)) m) = true := by
  induction l generalizing m with
  | nil => exact h
  | cons w l ih => exact ih (Memory.wf_write h _ _)

/-- Writing lanes lists no key but the lanes' keys beside those listed before. -/
theorem Memory.mem_writeLanes {m : Memory} {key : Nat → Nat} {v : Data} {n : Nat} {p : Host.Cell}
    (h : p ∈ Memory.writeLanes dflt key v n m) : (∃ k < n, p.1 = key k) ∨ p ∈ m := by
  induction n with
  | zero => exact .inr h
  | succ n ih =>
    rcases Memory.mem_write h with rfl | h
    · exact .inl ⟨n, by omega, rfl⟩
    · rcases ih h with ⟨k, hk, he⟩ | h
      · exact .inl ⟨k, by omega, he⟩
      · exact .inr h

/-- The keys of a written list of bytes. -/
theorem Memory.mem_foldl_write {α : Type} (key : α → Nat) (byte : α → Byte) (l : List α) {m : Memory}
    {p : Host.Cell} (h : p ∈ l.foldl (fun m w => Memory.write dflt m (key w) (byte w)) m) :
    (∃ w ∈ l, p.1 = key w) ∨ p ∈ m := by
  induction l generalizing m with
  | nil => exact .inr h
  | cons w l ih =>
    rcases ih h with ⟨w', hw', he⟩ | h
    · exact .inl ⟨w', List.mem_cons_of_mem _ hw', he⟩
    · rcases Memory.mem_write h with rfl | h
      · exact .inl ⟨w, by simp, rfl⟩
      · exact .inr h

/-- Reading after a list of writes: the last byte written at the key, or what it read before. -/
theorem Memory.read_foldl_write {α : Type} (key : α → Nat) (byte : α → Byte) (l : List α) {m : Memory}
    (h : Memory.rising 0 m = true) (a : Nat) :
    Memory.read dflt (l.foldl (fun m w => Memory.write dflt m (key w) (byte w)) m) a =
      ((l.filter fun w => key w = a).map byte).getLastD (Memory.read dflt m a) := by
  induction l generalizing m with
  | nil => rfl
  | cons w l ih =>
    rw [List.foldl_cons, ih (Memory.rising_write (Nat.zero_le _) h), Memory.read_write h]
    by_cases e : key w = a
    · rw [List.filter_cons_of_pos (by simpa using e), if_pos e.symm, List.map_cons]
      cases (l.filter fun w => key w = a).map byte <;> simp [List.getLastD]
    · rw [List.filter_cons_of_neg (by simpa using e), if_neg (Ne.symm e)]

/-- Writing lanes keeps the keys rising. -/
theorem Memory.rising_writeLanes {m : Memory} (h : Memory.rising 0 m = true) (key : Nat → Nat) (v : Data)
    (n : Nat) : Memory.rising 0 (Memory.writeLanes dflt key v n m) = true := by
  induction n with
  | zero => exact h
  | succ n ih => exact Memory.rising_write (Nat.zero_le _) ih

/-- A key that is no lane's key reads as before. -/
theorem Memory.read_writeLanes_other {m : Memory} (h : Memory.rising 0 m = true) {key : Nat → Nat}
    {v : Data} {n j : Nat} (hj : ∀ k < n, j ≠ key k) :
    Memory.read dflt (Memory.writeLanes dflt key v n m) j = Memory.read dflt m j := by
  induction n with
  | zero => rfl
  | succ n ih =>
    rw [Memory.writeLanes, Memory.read_write (Memory.rising_writeLanes h key v n),
      if_neg (hj n (by omega)), ih fun k hk => hj k (by omega)]

/-- Where the lanes' keys are distinct, each reads as its lane. -/
theorem Memory.read_writeLanes_lane {m : Memory} (h : Memory.rising 0 m = true) {key : Nat → Nat}
    {v : Data} {n k : Nat} (hk : k < n) (hinj : ∀ i < n, ∀ j < n, key i = key j → i = j) :
    Memory.read dflt (Memory.writeLanes dflt key v n m) (key k) = lane v k := by
  induction n with
  | zero => omega
  | succ n ih =>
    rw [Memory.writeLanes, Memory.read_write (Memory.rising_writeLanes h key v n)]
    by_cases hkn : k = n
    · simp [hkn]
    · rw [if_neg fun he => hkn (hinj k hk n (by omega) he)]
      exact ih (by omega) fun i hi j hj => hinj i (by omega) j (by omega)

/-- Only the lanes written matter. -/
theorem Memory.writeLanes_congr {m : Memory} {key : Nat → Nat} {v w : Data} {n : Nat}
    (h : ∀ k < n, lane v k = lane w k) :
    Memory.writeLanes dflt key v n m = Memory.writeLanes dflt key w n m := by
  induction n with
  | zero => rfl
  | succ n ih => rw [Memory.writeLanes, Memory.writeLanes, ih fun k hk => h k (by omega), h n (by omega)]

/-- The empty memory is canonical. -/
theorem Memory.wf_nil : Memory.wf dflt [] = true := rfl

/-- Equal contents are equal data: canonical memories that read alike everywhere are equal. -/
theorem Memory.ext_of_read {m m' : Memory} (h : Memory.wf dflt m = true) (h' : Memory.wf dflt m' = true)
    (he : ∀ k, Memory.read dflt m k = Memory.read dflt m' k) : m = m' := by
  rw [Memory.wf_iff] at h h'
  have key : ∀ (m m' : Memory) (lo : Nat), Memory.rising lo m = true → Memory.rising lo m' = true →
      (∀ p ∈ m, p.2 ≠ dflt p.1) → (∀ p ∈ m', p.2 ≠ dflt p.1) →
      (∀ k, Memory.read dflt m k = Memory.read dflt m' k) → m = m' := by
    intro m
    induction m with
    | nil =>
      intro m' lo _ hr' _ hn' he
      cases m' with
      | nil => rfl
      | cons q m' =>
        have := he q.1
        simp [Memory.read] at this
        exact absurd this.symm (hn' q (by simp))
    | cons p m ih =>
      intro m' lo hr hr' hn hn' he
      obtain ⟨x, b⟩ := p
      cases m' with
      | nil =>
        have := he x
        simp [Memory.read] at this
        exact absurd this (hn (x, b) (by simp))
      | cons q m' =>
        obtain ⟨y, d⟩ := q
        simp only [Memory.rising, Bool.and_eq_true, decide_eq_true_eq] at hr hr'
        have hxy : x = y := by
          rcases Nat.lt_trichotomy x y with hlt | heq | hlt
          · exfalso
            have := he x
            rw [Memory.read, if_pos rfl, Memory.read, if_neg (by omega),
              Memory.read_of_lt hr'.2 (by omega)] at this
            exact hn (x, b) (by simp) this
          · exact heq
          · exfalso
            have := he y
            rw [Memory.read, if_neg (by omega), Memory.read_of_lt hr.2 (by omega), Memory.read,
              if_pos rfl] at this
            exact hn' (y, d) (by simp) this.symm
        subst hxy
        have hbd : b = d := by simpa [Memory.read] using he x
        subst hbd
        congr 1
        refine ih m' (x + 1) hr.2 hr'.2 (fun p hp => hn p (by simp [hp]))
          (fun p hp => hn' p (by simp [hp])) fun k => ?_
        by_cases hk : x = k
        · subst hk
          rw [Memory.read_of_lt hr.2 (by omega), Memory.read_of_lt hr'.2 (by omega)]
        · simpa [Memory.read, hk] using he k
  exact key m m' 0 h.1 h'.1 h.2 h'.2 he

end Sys2Proof.Machine
end

