-- ==== Sys2Proof/Laws/State.lean ====
section
/-! SUPPORT. One lemma for each field of the state and each named update of it, so that no later proof
unfolds a record update. -/

namespace Sys2Proof.Machine

/-! ### respond -/

@[simp] theorem respond_cs (r : Data × State) :
    (respond r).cs = r.2.cs := rfl
@[simp] theorem respond_rf (r : Data × State) :
    (respond r).rf = r.2.rf := rfl
@[simp] theorem respond_mode (r : Data × State) :
    (respond r).mode = r.2.mode := rfl
@[simp] theorem respond_vsync (r : Data × State) :
    (respond r).vsync = r.2.vsync := rfl
@[simp] theorem respond_fullscreen (r : Data × State) :
    (respond r).fullscreen = r.2.fullscreen := rfl
@[simp] theorem respond_pending (r : Data × State) :
    (respond r).pending = r.2.pending := rfl
@[simp] theorem respond_buf (r : Data × State) :
    (respond r).buf = r.2.buf := rfl
@[simp] theorem respond_presented (r : Data × State) :
    (respond r).presented = r.2.presented := rfl
@[simp] theorem respond_rdata (r : Data × State) :
    (respond r).rdata = r.2.rdata ++ [r.1] := rfl
@[simp] theorem respond_opLog (r : Data × State) :
    (respond r).opLog = r.2.opLog := rfl
@[simp] theorem respond_mem (r : Data × State) :
    (respond r).mem = r.2.mem := rfl
@[simp] theorem respond_inputs (r : Data × State) :
    (respond r).inputs = r.2.inputs := rfl
@[simp] theorem respond_draws (r : Data × State) :
    (respond r).draws = r.2.draws := rfl

/-! ### present -/

@[simp] theorem present_cs (s : State) :
    (present s).cs = s.cs := rfl
@[simp] theorem present_rf (s : State) :
    (present s).rf = s.rf := rfl
@[simp] theorem present_mode (s : State) :
    (present s).mode = s.mode := rfl
@[simp] theorem present_vsync (s : State) :
    (present s).vsync = s.vsync := rfl
@[simp] theorem present_fullscreen (s : State) :
    (present s).fullscreen = s.fullscreen := rfl
@[simp] theorem present_pending (s : State) :
    (present s).pending = s.pending := rfl
@[simp] theorem present_buf (s : State) :
    (present s).buf = s.buf := rfl
@[simp] theorem present_presented (s : State) :
    (present s).presented = s.presented ++ [s.buf] := rfl
@[simp] theorem present_rdata (s : State) :
    (present s).rdata = s.rdata := rfl
@[simp] theorem present_opLog (s : State) :
    (present s).opLog = s.opLog := rfl
@[simp] theorem present_mem (s : State) :
    (present s).mem = s.mem := rfl
@[simp] theorem present_inputs (s : State) :
    (present s).inputs = s.inputs := rfl
@[simp] theorem present_draws (s : State) :
    (present s).draws = s.draws := rfl

/-! ### fnConfigWrite -/

@[simp] theorem fnConfigWrite_cs (c : Config) (s : State) (f : FnId) (o : BitVec 8) (v : Data) (n : Size) :
    (fnConfigWrite c s f o v n).cs =
      Memory.writeLanes (csReset c) (fun k => csKey f (cfgByteOffset o k)) v (bytes n) s.cs := rfl
@[simp] theorem fnConfigWrite_rf (c : Config) (s : State) (f : FnId) (o : BitVec 8) (v : Data) (n : Size) :
    (fnConfigWrite c s f o v n).rf = s.rf := rfl
@[simp] theorem fnConfigWrite_mode (c : Config) (s : State) (f : FnId) (o : BitVec 8) (v : Data) (n : Size) :
    (fnConfigWrite c s f o v n).mode = s.mode := rfl
@[simp] theorem fnConfigWrite_vsync (c : Config) (s : State) (f : FnId) (o : BitVec 8) (v : Data) (n : Size) :
    (fnConfigWrite c s f o v n).vsync = s.vsync := rfl
@[simp] theorem fnConfigWrite_fullscreen (c : Config) (s : State) (f : FnId) (o : BitVec 8) (v : Data) (n : Size) :
    (fnConfigWrite c s f o v n).fullscreen = s.fullscreen := rfl
@[simp] theorem fnConfigWrite_pending (c : Config) (s : State) (f : FnId) (o : BitVec 8) (v : Data) (n : Size) :
    (fnConfigWrite c s f o v n).pending = s.pending := rfl
@[simp] theorem fnConfigWrite_buf (c : Config) (s : State) (f : FnId) (o : BitVec 8) (v : Data) (n : Size) :
    (fnConfigWrite c s f o v n).buf = s.buf := rfl
@[simp] theorem fnConfigWrite_presented (c : Config) (s : State) (f : FnId) (o : BitVec 8) (v : Data) (n : Size) :
    (fnConfigWrite c s f o v n).presented = s.presented := rfl
@[simp] theorem fnConfigWrite_rdata (c : Config) (s : State) (f : FnId) (o : BitVec 8) (v : Data) (n : Size) :
    (fnConfigWrite c s f o v n).rdata = s.rdata := rfl
@[simp] theorem fnConfigWrite_opLog (c : Config) (s : State) (f : FnId) (o : BitVec 8) (v : Data) (n : Size) :
    (fnConfigWrite c s f o v n).opLog = s.opLog := rfl
@[simp] theorem fnConfigWrite_mem (c : Config) (s : State) (f : FnId) (o : BitVec 8) (v : Data) (n : Size) :
    (fnConfigWrite c s f o v n).mem = s.mem := rfl
@[simp] theorem fnConfigWrite_inputs (c : Config) (s : State) (f : FnId) (o : BitVec 8) (v : Data) (n : Size) :
    (fnConfigWrite c s f o v n).inputs = s.inputs := rfl
@[simp] theorem fnConfigWrite_draws (c : Config) (s : State) (f : FnId) (o : BitVec 8) (v : Data) (n : Size) :
    (fnConfigWrite c s f o v n).draws = s.draws := rfl

/-! ### dcRegWrite -/

@[simp] theorem dcRegWrite_cs (c : Config) (s : State) (a : Addr) (v : Data) (n : Size) :
    (dcRegWrite c s a v n).cs = s.cs := rfl
@[simp] theorem dcRegWrite_rf (c : Config) (s : State) (a : Addr) (v : Data) (n : Size) :
    (dcRegWrite c s a v n).rf =
      Memory.writeLanes (rfReset c) (dcRegKey c a) v (bytes n) s.rf := rfl
@[simp] theorem dcRegWrite_mode (c : Config) (s : State) (a : Addr) (v : Data) (n : Size) :
    (dcRegWrite c s a v n).mode = s.mode := rfl
@[simp] theorem dcRegWrite_vsync (c : Config) (s : State) (a : Addr) (v : Data) (n : Size) :
    (dcRegWrite c s a v n).vsync = s.vsync := rfl
@[simp] theorem dcRegWrite_fullscreen (c : Config) (s : State) (a : Addr) (v : Data) (n : Size) :
    (dcRegWrite c s a v n).fullscreen = s.fullscreen := rfl
@[simp] theorem dcRegWrite_pending (c : Config) (s : State) (a : Addr) (v : Data) (n : Size) :
    (dcRegWrite c s a v n).pending = s.pending := rfl
@[simp] theorem dcRegWrite_buf (c : Config) (s : State) (a : Addr) (v : Data) (n : Size) :
    (dcRegWrite c s a v n).buf = s.buf := rfl
@[simp] theorem dcRegWrite_presented (c : Config) (s : State) (a : Addr) (v : Data) (n : Size) :
    (dcRegWrite c s a v n).presented = s.presented := rfl
@[simp] theorem dcRegWrite_rdata (c : Config) (s : State) (a : Addr) (v : Data) (n : Size) :
    (dcRegWrite c s a v n).rdata = s.rdata := rfl
@[simp] theorem dcRegWrite_opLog (c : Config) (s : State) (a : Addr) (v : Data) (n : Size) :
    (dcRegWrite c s a v n).opLog = s.opLog := rfl
@[simp] theorem dcRegWrite_mem (c : Config) (s : State) (a : Addr) (v : Data) (n : Size) :
    (dcRegWrite c s a v n).mem = s.mem := rfl
@[simp] theorem dcRegWrite_inputs (c : Config) (s : State) (a : Addr) (v : Data) (n : Size) :
    (dcRegWrite c s a v n).inputs = s.inputs := rfl
@[simp] theorem dcRegWrite_draws (c : Config) (s : State) (a : Addr) (v : Data) (n : Size) :
    (dcRegWrite c s a v n).draws = s.draws := rfl

/-! ### writeMainMemory -/

@[simp] theorem writeMainMemory_cs (c : Config) (s : State) (ws : List (Addr × Byte)) :
    (writeMainMemory c s ws).cs = s.cs := rfl
@[simp] theorem writeMainMemory_rf (c : Config) (s : State) (ws : List (Addr × Byte)) :
    (writeMainMemory c s ws).rf = s.rf := rfl
@[simp] theorem writeMainMemory_mode (c : Config) (s : State) (ws : List (Addr × Byte)) :
    (writeMainMemory c s ws).mode = s.mode := rfl
@[simp] theorem writeMainMemory_vsync (c : Config) (s : State) (ws : List (Addr × Byte)) :
    (writeMainMemory c s ws).vsync = s.vsync := rfl
@[simp] theorem writeMainMemory_fullscreen (c : Config) (s : State) (ws : List (Addr × Byte)) :
    (writeMainMemory c s ws).fullscreen = s.fullscreen := rfl
@[simp] theorem writeMainMemory_pending (c : Config) (s : State) (ws : List (Addr × Byte)) :
    (writeMainMemory c s ws).pending = s.pending := rfl
@[simp] theorem writeMainMemory_buf (c : Config) (s : State) (ws : List (Addr × Byte)) :
    (writeMainMemory c s ws).buf = s.buf := rfl
@[simp] theorem writeMainMemory_presented (c : Config) (s : State) (ws : List (Addr × Byte)) :
    (writeMainMemory c s ws).presented = s.presented := rfl
@[simp] theorem writeMainMemory_rdata (c : Config) (s : State) (ws : List (Addr × Byte)) :
    (writeMainMemory c s ws).rdata = s.rdata := rfl
@[simp] theorem writeMainMemory_opLog (c : Config) (s : State) (ws : List (Addr × Byte)) :
    (writeMainMemory c s ws).opLog = s.opLog := rfl
@[simp] theorem writeMainMemory_mem (c : Config) (s : State) (ws : List (Addr × Byte)) :
    (writeMainMemory c s ws).mem =
      ws.foldl (fun m w => Memory.write c.memInit m w.1.toNat w.2) s.mem := rfl
@[simp] theorem writeMainMemory_inputs (c : Config) (s : State) (ws : List (Addr × Byte)) :
    (writeMainMemory c s ws).inputs = s.inputs := rfl
@[simp] theorem writeMainMemory_draws (c : Config) (s : State) (ws : List (Addr × Byte)) :
    (writeMainMemory c s ws).draws = s.draws := rfl

/-! ### opaqueRead -/

@[simp] theorem opaqueRead_cs (c : Config) (s : State) (d : Device) (a : Addr) (n : Size) :
    (opaqueRead c s d a n).2.cs = s.cs := rfl
@[simp] theorem opaqueRead_rf (c : Config) (s : State) (d : Device) (a : Addr) (n : Size) :
    (opaqueRead c s d a n).2.rf = s.rf := rfl
@[simp] theorem opaqueRead_mode (c : Config) (s : State) (d : Device) (a : Addr) (n : Size) :
    (opaqueRead c s d a n).2.mode = s.mode := rfl
@[simp] theorem opaqueRead_vsync (c : Config) (s : State) (d : Device) (a : Addr) (n : Size) :
    (opaqueRead c s d a n).2.vsync = s.vsync := rfl
@[simp] theorem opaqueRead_fullscreen (c : Config) (s : State) (d : Device) (a : Addr) (n : Size) :
    (opaqueRead c s d a n).2.fullscreen = s.fullscreen := rfl
@[simp] theorem opaqueRead_pending (c : Config) (s : State) (d : Device) (a : Addr) (n : Size) :
    (opaqueRead c s d a n).2.pending = s.pending := rfl
@[simp] theorem opaqueRead_buf (c : Config) (s : State) (d : Device) (a : Addr) (n : Size) :
    (opaqueRead c s d a n).2.buf = s.buf := rfl
@[simp] theorem opaqueRead_presented (c : Config) (s : State) (d : Device) (a : Addr) (n : Size) :
    (opaqueRead c s d a n).2.presented = s.presented := rfl
@[simp] theorem opaqueRead_rdata (c : Config) (s : State) (d : Device) (a : Addr) (n : Size) :
    (opaqueRead c s d a n).2.rdata = s.rdata := rfl
@[simp] theorem opaqueRead_opLog (c : Config) (s : State) (d : Device) (a : Addr) (n : Size) :
    (opaqueRead c s d a n).2.opLog = s.opLog := rfl
@[simp] theorem opaqueRead_mem (c : Config) (s : State) (d : Device) (a : Addr) (n : Size) :
    (opaqueRead c s d a n).2.mem = s.mem := rfl
@[simp] theorem opaqueRead_inputs (c : Config) (s : State) (d : Device) (a : Addr) (n : Size) :
    (opaqueRead c s d a n).2.inputs = s.inputs := rfl
@[simp] theorem opaqueRead_draws (c : Config) (s : State) (d : Device) (a : Addr) (n : Size) :
    (opaqueRead c s d a n).2.draws = s.draws + 1 := rfl

/-! ### presentNext -/

@[simp] theorem presentNext_cs (s : State) (t : Transaction) :
    (presentNext s t).cs = s.cs := rfl
@[simp] theorem presentNext_rf (s : State) (t : Transaction) :
    (presentNext s t).rf = s.rf := rfl
@[simp] theorem presentNext_mode (s : State) (t : Transaction) :
    (presentNext s t).mode = s.mode := rfl
@[simp] theorem presentNext_vsync (s : State) (t : Transaction) :
    (presentNext s t).vsync = s.vsync := rfl
@[simp] theorem presentNext_fullscreen (s : State) (t : Transaction) :
    (presentNext s t).fullscreen = s.fullscreen := rfl
@[simp] theorem presentNext_pending (s : State) (t : Transaction) :
    (presentNext s t).pending = s.pending := rfl
@[simp] theorem presentNext_buf (s : State) (t : Transaction) :
    (presentNext s t).buf = s.buf := rfl
@[simp] theorem presentNext_presented (s : State) (t : Transaction) :
    (presentNext s t).presented = s.presented := rfl
@[simp] theorem presentNext_rdata (s : State) (t : Transaction) :
    (presentNext s t).rdata = s.rdata := rfl
@[simp] theorem presentNext_opLog (s : State) (t : Transaction) :
    (presentNext s t).opLog = s.opLog := rfl
@[simp] theorem presentNext_mem (s : State) (t : Transaction) :
    (presentNext s t).mem = s.mem := rfl
@[simp] theorem presentNext_inputs (s : State) (t : Transaction) :
    (presentNext s t).inputs = .command t :: s.inputs := rfl
@[simp] theorem presentNext_draws (s : State) (t : Transaction) :
    (presentNext s t).draws = s.draws := rfl

/-! ### construction -/

@[simp] theorem init_cs (c : Config) :
    (State.init c).cs = [] := rfl
@[simp] theorem init_rf (c : Config) :
    (State.init c).rf = [] := rfl
@[simp] theorem init_mode (c : Config) :
    (State.init c).mode = if c.displayEnabled then .starting else .off := rfl
@[simp] theorem init_vsync (c : Config) :
    (State.init c).vsync = c.vsync0 := rfl
@[simp] theorem init_fullscreen (c : Config) :
    (State.init c).fullscreen = c.fullscreen0 := rfl
@[simp] theorem init_pending (c : Config) :
    (State.init c).pending = [] := rfl
@[simp] theorem init_buf (c : Config) :
    (State.init c).buf = (List.range (c.width * c.height * 4)).map c.bufInit := rfl
@[simp] theorem init_presented (c : Config) :
    (State.init c).presented = [] := rfl
@[simp] theorem init_rdata (c : Config) :
    (State.init c).rdata = [] := rfl
@[simp] theorem init_opLog (c : Config) :
    (State.init c).opLog = [] := rfl
@[simp] theorem init_mem (c : Config) :
    (State.init c).mem = [] := rfl
@[simp] theorem init_inputs (c : Config) :
    (State.init c).inputs = [] := rfl
@[simp] theorem init_draws (c : Config) :
    (State.init c).draws = 0 := rfl

/-! ### the bytes the updates leave alone -/

@[simp] theorem csByte_respond (c : Config) (r : Data × State) (f : FnId) (o : BitVec 8) :
    csByte c (respond r) f o = csByte c r.2 f o := rfl
@[simp] theorem csByte_dcRegWrite (c : Config) (s : State) (a : Addr) (v : Data) (n : Size) (f : FnId)
    (o : BitVec 8) : csByte c (dcRegWrite c s a v n) f o = csByte c s f o := rfl
@[simp] theorem rfByte_respond (c : Config) (r : Data × State) (j : Nat) :
    rfByte c (respond r) j = rfByte c r.2 j := rfl
@[simp] theorem rfByte_fnConfigWrite (c : Config) (s : State) (f : FnId) (o : BitVec 8) (v : Data)
    (n : Size) (j : Nat) : rfByte c (fnConfigWrite c s f o v n) j = rfByte c s j := rfl

end Sys2Proof.Machine
end

