-- ==== Sys2Proof/Laws/Ops.lean ====
section
/-! SUPPORT. One lemma for each shared operation that says what it can do. -/

namespace Sys2Proof

/-- A well-formed register file holds the register with index 0xA07 (R11 (f), R173). -/
theorem Config.WellFormed.rf_large {c : Config} (h : c.WellFormed) : 0x2820 ≤ c.rfSize := by
  have := h.override_index _ h.override_status
  simp only at this
  omega

end Sys2Proof

namespace Sys2Proof.Machine

/-! ### Keys -/

/-- A key of the configuration spaces names one function and one offset. -/
theorem csKey_inj {f g : FnId} {o p : BitVec 8} : csKey f o = csKey g p ↔ f = g ∧ o = p := by
  have ho := o.isLt
  have hp := p.isLt
  constructor
  · intro h
    simp only [csKey] at h
    have hf : @Eq Nat f g := by omega
    exact ⟨hf, BitVec.eq_of_toNat_eq (by omega)⟩
  · rintro ⟨rfl, rfl⟩; rfl

/-- The function a key belongs to. -/
@[simp] theorem csKey_div (f : FnId) (o : BitVec 8) : csKey f o / 256 = f := by
  have ho := o.isLt
  simp only [csKey]; omega

/-- The offset a key belongs to. -/
@[simp] theorem ofNat_csKey (f : FnId) (o : BitVec 8) : BitVec.ofNat 8 (csKey f o) = o := by
  have ho := o.isLt
  apply BitVec.eq_of_toNat_eq
  simp only [csKey, BitVec.toNat_ofNat]; omega

/-- The lanes of one configuration access stand at different offsets (R167). -/
theorem cfgByteOffset_inj {o : BitVec 8} {i j : Nat} (hi : i < 256) (hj : j < 256)
    (h : cfgByteOffset o i = cfgByteOffset o j) : i = j := by
  have ho := o.isLt
  have := congrArg BitVec.toNat h
  simp only [cfgByteOffset, BitVec.toNat_add, BitVec.toNat_ofNat] at this
  omega

/-- The lanes of one register-file access stand at different bytes (R171). -/
theorem dcRegKey_inj {c : Config} (hc : 8 ≤ c.rfSize) {a : Addr} {i j : Nat} (hi : i < 8) (hj : j < 8)
    (h : dcRegKey c a i = dcRegKey c a j) : i = j := by
  simp only [dcRegKey] at h
  have hij : (i : Nat) ≡ j [MOD c.rfSize] := Nat.ModEq.add_left_cancel' _ h
  exact Nat.ModEq.eq_of_lt_of_lt hij (by omega) (by omega)

/-- Every lane's register-file byte exists (R170, R171). -/
theorem dcRegKey_lt {c : Config} (hc : 0 < c.rfSize) (a : Addr) (k : Nat) : dcRegKey c a k < c.rfSize :=
  Nat.mod_lt _ hc

/-! ### Configuration spaces and register file -/

/-- Lane k of a configuration read, and zero above the size (R166). -/
theorem lane_fnConfigRead (c : Config) (s : State) (f : FnId) (o : BitVec 8) (n : Size) (k : Nat) :
    lane (fnConfigRead c s f o n) k =
      if k < bytes n then csByte c s f (cfgByteOffset o k) else 0 :=
  lane_dataOfLanes n _ k

/-- A configuration write stores lane k at offset `o + k` of its function (R167). -/
theorem csByte_fnConfigWrite_lane {c : Config} {s : State} (h : Memory.rising 0 s.cs = true) (f : FnId)
    (o : BitVec 8) (v : Data) (n : Size) {k : Nat} (hk : k < bytes n) :
    csByte c (fnConfigWrite c s f o v n) f (cfgByteOffset o k) = lane v k := by
  have h8 := bytes_le n
  exact Memory.read_writeLanes_lane h hk fun i hi j hj he =>
    cfgByteOffset_inj (by omega) (by omega) (csKey_inj.1 he).2

/-- A configuration write leaves every other byte of every configuration space alone (R167). -/
theorem csByte_fnConfigWrite_other {c : Config} {s : State} (h : Memory.rising 0 s.cs = true) (f : FnId)
    (o : BitVec 8) (v : Data) (n : Size) {g : FnId} {p : BitVec 8}
    (hp : g ≠ f ∨ ∀ k < bytes n, p ≠ cfgByteOffset o k) :
    csByte c (fnConfigWrite c s f o v n) g p = csByte c s g p :=
  Memory.read_writeLanes_other h fun k hk he => by
    obtain ⟨h1, h2⟩ := csKey_inj.1 he
    rcases hp with hg | ho
    · exact hg h1
    · exact ho k hk h2

/-- A register-file write stores lane k at its byte (R171). -/
theorem rfByte_dcRegWrite_lane {c : Config} (hc : 8 ≤ c.rfSize) {s : State}
    (h : Memory.rising 0 s.rf = true) (a : Addr) (v : Data) (n : Size) {k : Nat} (hk : k < bytes n) :
    rfByte c (dcRegWrite c s a v n) (dcRegKey c a k) = lane v k := by
  have h8 := bytes_le n
  exact Memory.read_writeLanes_lane h hk fun i hi j hj he =>
    dcRegKey_inj hc (by omega) (by omega) he

/-- A register-file write leaves every other byte of the register file alone (R171). -/
theorem rfByte_dcRegWrite_other {c : Config} {s : State} (h : Memory.rising 0 s.rf = true) (a : Addr)
    (v : Data) (n : Size) {j : Nat} (hj : ∀ k < bytes n, j ≠ dcRegKey c a k) :
    rfByte c (dcRegWrite c s a v n) j = rfByte c s j :=
  Memory.read_writeLanes_other h hj

/-! ### Routing -/

/-- A bridge hands a read to its first claiming function (R141, R163). -/
theorem bridgeMemRead_eq (c : Config) (s : State) (a : Addr) (n : Size) (fs : List FnId) :
    bridgeMemRead c s a n fs =
      (fs.find? fun f => isAddressMapped c s f a).map fun f =>
        if f = c.dc then (dcRegRead c s a n, s) else opaqueRead c s (.function f) a n := by
  induction fs with
  | nil => rfl
  | cons f fs ih =>
    rw [bridgeMemRead, fnMemRead]
    cases hm : isAddressMapped c s f a
    · simp [ih, hm]
    · simp only [if_true, List.find?_cons, hm, Option.map_some]
      by_cases hf : f = c.dc
      · simp only [if_pos hf]
      · simp only [if_neg hf]

/-- A bridge hands a write to its first claiming function (R142, R164). -/
theorem bridgeMemWrite_eq (c : Config) (s : State) (a : Addr) (v : Data) (n : Size) (fs : List FnId) :
    bridgeMemWrite c s a v n fs =
      (fs.find? fun f => isAddressMapped c s f a).map fun f =>
        if f = c.dc then dcRegWrite c s a v n else s := by
  induction fs with
  | nil => rfl
  | cons f fs ih =>
    rw [bridgeMemWrite, fnMemWrite]
    cases hm : isAddressMapped c s f a
    · simp [ih, hm]
    · simp only [if_true, List.find?_cons, hm, Option.map_some]
      by_cases hf : f = c.dc
      · simp only [if_pos hf]
      · simp only [if_neg hf, opaqueWrite]

/-- The bridges together: the first claiming function in the order of all of them (R110, R120). -/
theorem bridgesMemRead_eq (c : Config) (s : State) (a : Addr) (n : Size) (bs : List (List FnId)) :
    bridgesMemRead c s a n bs =
      (bs.flatten.find? fun f => isAddressMapped c s f a).map fun f =>
        if f = c.dc then (dcRegRead c s a n, s) else opaqueRead c s (.function f) a n := by
  induction bs with
  | nil => rfl
  | cons b bs ih =>
    rw [bridgesMemRead, bridgeMemRead_eq, List.flatten_cons, List.find?_append]
    cases hf : b.find? fun f => isAddressMapped c s f a <;> simp [ih]

/-- The bridges together, for a write. -/
theorem bridgesMemWrite_eq (c : Config) (s : State) (a : Addr) (v : Data) (n : Size)
    (bs : List (List FnId)) :
    bridgesMemWrite c s a v n bs =
      (bs.flatten.find? fun f => isAddressMapped c s f a).map fun f =>
        if f = c.dc then dcRegWrite c s a v n else s := by
  induction bs with
  | nil => rfl
  | cons b bs ih =>
    rw [bridgesMemWrite, bridgeMemWrite_eq, List.flatten_cons, List.find?_append]
    cases hf : b.find? fun f => isAddressMapped c s f a <;> simp [ih]

/-- Everything a memory read can do (R110, R111). -/
theorem memRead_eq (c : Config) (s : State) (a : Addr) (n : Size) :
    memRead c s a n =
      if inRange c.cfgWindow a then (cfgRead c s a n, s)
      else match firstClaimant c s a with
        | some f => if f = c.dc then (dcRegRead c s a n, s) else opaqueRead c s (.function f) a n
        | none =>
          match flatAt c a with
          | some r => opaqueRead c s (.flat r.dev) a n
          | none => (0, s) := by
  simp only [memRead, bridgesMemRead_eq, firstClaimant, Config.functions]
  split
  · rfl
  · cases c.bridges.flatten.find? fun f => isAddressMapped c s f a <;> rfl

/-- Everything a memory write can do (R110, R112). -/
theorem memWrite_eq (c : Config) (s : State) (a : Addr) (v : Data) (n : Size) :
    memWrite c s a v n =
      if inRange c.cfgWindow a then cfgWrite c s a v n
      else match firstClaimant c s a with
        | some f => if f = c.dc then dcRegWrite c s a v n else s
        | none => s := by
  simp only [memWrite, bridgesMemWrite_eq, firstClaimant, Config.functions]
  split
  · rfl
  · cases c.bridges.flatten.find? fun f => isAddressMapped c s f a
    · simp only [Option.map_none]
      cases flatAt c a <;> rfl
    · rfl

/-- Routing reads only the configuration spaces: two states with the same `CS` route alike (R119). -/
theorem firstClaimant_congr {c : Config} {s t : State} (h : s.cs = t.cs) (a : Addr) :
    firstClaimant c s a = firstClaimant c t a := by
  have hb : bar c s = bar c t := by funext f i; simp only [bar, csByte, h]
  have hm : isAddressMapped c s = isAddressMapped c t := by
    funext f a; simp only [isAddressMapped, hb]
  simp only [firstClaimant, hm]

/-! ### Main memory -/

/-- Everything the other agents' writes can do to main memory: each byte holds the last value written
there (R68). -/
theorem memByte_writeMainMemory {c : Config} {s : State} (h : Memory.rising 0 s.mem = true)
    (ws : List (Addr × Byte)) (a : Nat) :
    memByte c (writeMainMemory c s ws) a = lastWritten c s ws a :=
  Memory.read_foldl_write (fun w : Addr × Byte => w.1.toNat) Prod.snd ws h a

/-! ### Status bits and the production loop -/

/-- Post changes nothing but the queue (R231). -/
theorem post_eq (sig : Signal) (s : State) :
    post sig s = { s with pending := if listening s.mode then s.pending ++ [sig] else s.pending } := by
  unfold post
  split <;> rfl

/-- Signals change nothing but the two toggles. -/
theorem foldl_applySignal (l : List Signal) (s : State) :
    ∃ v f, l.foldl applySignal s = { s with vsync := v, fullscreen := f } := by
  induction l generalizing s with
  | nil => exact ⟨s.vsync, s.fullscreen, rfl⟩
  | cons sig l ih =>
    obtain ⟨v, f, h⟩ := ih (applySignal s sig)
    refine ⟨v, f, ?_⟩
    rw [List.foldl_cons, h]
    cases sig <;> rfl

/-- Everything a poll can do: the toggles, an empty queue, and Stopped on a quit (R232). -/
theorem poll_cases (s : State) :
    ∃ v f, poll s =
      { s with
        vsync := v
        fullscreen := f
        pending := []
        mode := if Signal.quit ∈ s.pending then .stopped else s.mode } := by
  obtain ⟨v, f, h⟩ := foldl_applySignal s.pending s
  refine ⟨v, f, ?_⟩
  simp only [poll, h]
  split <;> rfl

/-- Putting a pixel keeps the buffer's length. -/
@[simp] theorem length_putPixel (buf : List Byte) (dst : Nat) (p : Pixel) :
    (putPixel buf dst p).length = buf.length := by simp [putPixel]

/-- Rendering keeps the buffer's length. -/
@[simp] theorem length_renderFrame (c : Config) (rd : Nat → Byte) (buf : List Byte) :
    (renderFrame c rd buf).length = buf.length := by
  unfold renderFrame
  induction pixels c generalizing buf with
  | nil => rfl
  | cons xy l ih => rw [List.foldl_cons, ih]; simp [pixelStep]

/-- Everything a frame step can do (R223): one more frame, the buffer equal to it, the toggles, an empty
queue, Stopped on a quit. -/
theorem frameStep_cases (c : Config) (ws : List (Addr × Byte)) (s : State) :
    ∃ v f, frameStep c ws s =
      { s with
        buf := renderFrame c (oracleByte c s ws) s.buf
        presented := s.presented ++ [renderFrame c (oracleByte c s ws) s.buf]
        mem := (writeMainMemory c s ws).mem
        draws := s.draws + 1
        vsync := v
        fullscreen := f
        pending := []
        mode := if Signal.quit ∈ s.pending then .stopped else s.mode } := by
  obtain ⟨v, f, h⟩ := poll_cases (present (writeMainMemory c
    { s with buf := renderFrame c (oracleByte c s ws) s.buf, draws := s.draws + 1 } ws))
  exact ⟨v, f, h⟩

/-! ### Steps -/

/-- Everything a command can do (R111–R114, R233–R235): the next state of each. -/
theorem execIn_cases {c : Config} {i : Instr} {s t : State} (h : execIn c i s = .next t) :
    (∃ n a, i = .mrd n a ∧ t = respond (memRead c s a n)) ∨
    (∃ n a v, i = .mwr n a v ∧ t = memWrite c s a v n) ∨
    (∃ n a, i = .crd n a ∧ t = respond (cfgRead c s a n, s)) ∨
    (∃ n a v, i = .cwr n a v ∧ t = cfgWrite c s a v n) ∨
    (i = .sigVsync ∧ t = post .vsync s) ∨
    (i = .sigFullscreen ∧ t = post .fullscreen s) ∨
    (i = .sigQuit ∧ t = post .quit s) := by
  cases i <;> injection h with h <;> subst h <;> simp

/-- Everything one input can do (R256). -/
theorem happens_cases {c : Config} {e : Input} {s t : State} (h : happens c (execIn c) e s = .next t) :
    (∃ tr i, e = .command tr ∧ decode tr = .ok i ∧ execIn c i s = .next t) ∨
    (∃ ws, e = .loop ws ∧ t = loopTurn c ws s) ∨
    (∃ ws, e = .memory ws ∧ t = writeMainMemory c s ws) := by
  cases e with
  | command tr =>
    simp only [happens, transact] at h
    split at h
    · rename_i i hd
      exact .inl ⟨tr, i, rfl, hd, h⟩
    · cases h
  | loop ws => exact .inr (.inl ⟨ws, rfl, by injection h with h; exact h.symm⟩)
  | memory ws => exact .inr (.inr ⟨ws, rfl, by injection h with h; exact h.symm⟩)

/-- Everything a step can do (R256): the next input happens, or, without one, the loop steps. -/
theorem stepIn_cases {c : Config} {s t : State} (h : stepIn c s = .next t) :
    (s.inputs = [] ∧ loopEnabled s.mode = true ∧ t = loopTurn c [] s) ∨
    (∃ tr i rest, s.inputs = .command tr :: rest ∧ decode tr = .ok i ∧
      execIn c i { s with inputs := rest } = .next t) ∨
    (∃ ws rest, s.inputs = .loop ws :: rest ∧ t = loopTurn c ws { s with inputs := rest }) ∨
    (∃ ws rest, s.inputs = .memory ws :: rest ∧ t = writeMainMemory c { s with inputs := rest } ws) := by
  unfold stepIn stepBy at h
  split at h
  · rename_i hi
    unfold idle at h
    split at h
    · rename_i he
      injection h with h
      exact .inl ⟨hi, he, h.symm⟩
    · cases h
  · rename_i e rest hi
    rcases happens_cases h with ⟨tr, i, rfl, hd, ht⟩ | ⟨ws, rfl, ht⟩ | ⟨ws, rfl, ht⟩
    · exact .inr (.inl ⟨tr, i, rest, hi, hd, ht⟩)
    · exact .inr (.inr (.inl ⟨ws, rest, hi, ht⟩))
    · exact .inr (.inr (.inr ⟨ws, rest, hi, ht⟩))

end Sys2Proof.Machine
end

