-- ==== Sys2Proof/Laws/PerInstr.lean ====
section
/-! SUPPORT. Statements about the syntax of every instruction, one lemma per constructor of `Instr`. -/

/-- The command byte of an instruction's encoding has the CLASS its port carries: 00 or 01 on the bus
port (R91), 10 on the signal port (R92). -/
def Sys2Proof.Laws.PortClass.Statement (i : Sys2Proof.Instr) : Prop :=
  match Sys2Proof.encode i with
  | .bus cmd _ _ => cmd.extractLsb' 6 2 = 0 ∨ cmd.extractLsb' 6 2 = 1
  | .signal cmd => cmd.extractLsb' 6 2 = 2

theorem Sys2Proof.Laws.PortClass.mrd (n : Sys2Proof.Size) (addr : Sys2Proof.Addr) :
    Sys2Proof.Laws.PortClass.Statement (.mrd n addr) := by cases n <;> exact .inl (by decide)

theorem Sys2Proof.Laws.PortClass.mwr (n : Sys2Proof.Size) (addr : Sys2Proof.Addr)
    (wdata : Sys2Proof.Data) :
    Sys2Proof.Laws.PortClass.Statement (.mwr n addr wdata) := by cases n <;> exact .inl (by decide)

theorem Sys2Proof.Laws.PortClass.crd (n : Sys2Proof.Size) (addr : Sys2Proof.Addr) :
    Sys2Proof.Laws.PortClass.Statement (.crd n addr) := by cases n <;> exact .inr (by decide)

theorem Sys2Proof.Laws.PortClass.cwr (n : Sys2Proof.Size) (addr : Sys2Proof.Addr)
    (wdata : Sys2Proof.Data) :
    Sys2Proof.Laws.PortClass.Statement (.cwr n addr wdata) := by cases n <;> exact .inr (by decide)

theorem Sys2Proof.Laws.PortClass.sigVsync :
    Sys2Proof.Laws.PortClass.Statement .sigVsync := by
  show BitVec.extractLsb' 6 2 (Sys2Proof.encodeSig .vsync) = 2
  decide

theorem Sys2Proof.Laws.PortClass.sigFullscreen :
    Sys2Proof.Laws.PortClass.Statement .sigFullscreen := by
  show BitVec.extractLsb' 6 2 (Sys2Proof.encodeSig .fullscreen) = 2
  decide

theorem Sys2Proof.Laws.PortClass.sigQuit :
    Sys2Proof.Laws.PortClass.Statement .sigQuit := by
  show BitVec.extractLsb' 6 2 (Sys2Proof.encodeSig .quit) = 2
  decide
end

