-- ==== Sys2Proof/Laws/Schedule.lean ====
section
/-! SUPPORT. What one moment of a run can do (R256): the schedule in the state is not touched, and until the
production loop takes its turn its mode and its frames stay and signals only accumulate. -/

namespace Sys2Proof.Machine

/-- A command neither reads nor writes the schedule. -/
theorem execIn_inputs {c : Config} {i : Instr} {s t : State} (l : List Input)
    (h : execIn c i s = .next t) :
    execIn c i { s with inputs := l } = .next { t with inputs := l } := by
  rcases execIn_cases h with ⟨n, a, rfl, rfl⟩ | ⟨n, a, v, rfl, rfl⟩ | ⟨n, a, rfl, rfl⟩ |
    ⟨n, a, v, rfl, rfl⟩ | ⟨rfl, rfl⟩ | ⟨rfl, rfl⟩ | ⟨rfl, rfl⟩
  · have hf : firstClaimant c { s with inputs := l } a = firstClaimant c s a := firstClaimant_congr rfl a
    refine congrArg Host.Outcome.next ?_
    simp only [memRead_eq, hf]
    split
    · rfl
    · split
      · split <;> rfl
      · split <;> rfl
  · have hf : firstClaimant c { s with inputs := l } a = firstClaimant c s a := firstClaimant_congr rfl a
    refine congrArg Host.Outcome.next ?_
    simp only [memWrite_eq, hf]
    split
    · simp only [cfgWrite]
      split <;> rfl
    · split
      · split <;> rfl
      · rfl
  · rfl
  · refine congrArg Host.Outcome.next ?_
    simp only [cfgWrite]
    split <;> rfl
  all_goals exact congrArg Host.Outcome.next (by simp only [post_eq])

/-- Signals act on the toggles alone, whatever is scheduled. -/
theorem foldl_applySignal_inputs (l : List Input) (q : List Signal) (s : State) :
    q.foldl applySignal { s with inputs := l } = { q.foldl applySignal s with inputs := l } := by
  induction q generalizing s with
  | nil => rfl
  | cons sig q ih =>
    rw [List.foldl_cons, List.foldl_cons, ← ih]
    cases sig <;> rfl

/-- A poll neither reads nor writes the schedule. -/
theorem poll_inputs (l : List Input) (s : State) :
    poll { s with inputs := l } = { poll s with inputs := l } := by
  simp only [poll, foldl_applySignal_inputs]
  split <;> rfl

/-- A turn of the loop neither reads nor writes the schedule. -/
theorem loopTurn_inputs (c : Config) (ws : List (Addr × Byte)) (l : List Input) (s : State) :
    loopTurn c ws { s with inputs := l } = { loopTurn c ws s with inputs := l } := by
  have hf : frameStep c ws { s with inputs := l } = { frameStep c ws s with inputs := l } := by
    simp only [frameStep]
    rw [← poll_inputs]
    rfl
  obtain ⟨cs, rf, mode⟩ := s
  cases mode
  · rfl
  · simp only [loopTurn, acquireStep]
    split <;> rfl
  · exact hf
  · rfl
  · rfl

/-- What happens neither reads nor writes the schedule: the same input leads, with any other inputs in
the state, to the same state with those inputs (R256). -/
theorem happens_inputs {c : Config} {e : Input} {s t : State} (l : List Input)
    (h : happens c (execIn c) e s = .next t) :
    happens c (execIn c) e { s with inputs := l } = .next { t with inputs := l } := by
  rcases happens_cases h with ⟨tr, i, rfl, hd, ht⟩ | ⟨ws, rfl, rfl⟩ | ⟨ws, rfl, rfl⟩
  · simp only [happens, transact, hd]
    exact execIn_inputs l ht
  · exact congrArg Host.Outcome.next (loopTurn_inputs c ws l s)
  · rfl

/-- Everything a command can do to the production loop (R42, R231): one more pending signal. -/
theorem execIn_loop {c : Config} {i : Instr} {s t : State} (h : execIn c i s = .next t) :
    t.mode = s.mode ∧ t.presented = s.presented ∧ ∃ q, t.pending = s.pending ++ q := by
  rcases execIn_cases h with ⟨n, a, rfl, rfl⟩ | ⟨n, a, v, rfl, rfl⟩ | ⟨n, a, rfl, rfl⟩ |
    ⟨n, a, v, rfl, rfl⟩ | ⟨rfl, rfl⟩ | ⟨rfl, rfl⟩ | ⟨rfl, rfl⟩
  · rw [memRead_eq]
    split
    · exact ⟨rfl, rfl, [], (List.append_nil _).symm⟩
    · split <;> split <;> exact ⟨rfl, rfl, [], (List.append_nil _).symm⟩
  · rw [memWrite_eq]
    split
    · simp only [cfgWrite]
      split <;> exact ⟨rfl, rfl, [], (List.append_nil _).symm⟩
    · split
      · split <;> exact ⟨rfl, rfl, [], (List.append_nil _).symm⟩
      · exact ⟨rfl, rfl, [], (List.append_nil _).symm⟩
  · exact ⟨rfl, rfl, [], (List.append_nil _).symm⟩
  · simp only [cfgWrite]
    split <;> exact ⟨rfl, rfl, [], (List.append_nil _).symm⟩
  all_goals
    rw [post_eq]
    refine ⟨rfl, rfl, ?_⟩
    dsimp only
    split
    · exact ⟨_, rfl⟩
    · exact ⟨[], (List.append_nil _).symm⟩

/-- Until the loop takes its turn, its mode and its frames stay, and signals only accumulate (R42, R231). -/
theorem Run.quiet {c : Config} (r : Run c) {k : Nat} (h : ¬ loopSteps r k) :
    (r.state (k + 1)).mode = (r.state k).mode ∧ (r.state (k + 1)).presented = (r.state k).presented ∧
    ∃ q, (r.state (k + 1)).pending = (r.state k).pending ++ q := by
  rcases happens_cases (r.steps k) with ⟨tr, i, he, _, ht⟩ | ⟨ws, he, _⟩ | ⟨ws, he, ht⟩
  · exact execIn_loop ht
  · exact absurd ⟨ws, he⟩ h
  · rw [ht]
    exact ⟨rfl, rfl, [], (List.append_nil _).symm⟩

/-- The loop's turn at a moment of a run. -/
theorem Run.turn {c : Config} (r : Run c) {k : Nat} {ws : List (Addr × Byte)} (h : r.event k = .loop ws) :
    r.state (k + 1) = loopTurn c ws (r.state k) := by
  have hs := r.steps k
  rw [h] at hs
  injection hs with hs
  exact hs.symm

end Sys2Proof.Machine
end

