-- ==== Sys2Proof/Tests/Slice0.lean ====
section
/-! SUPPORT. Tests. Expected values are the spec's (R102; spec/95_test_vectors.md, by vector name), never
the model's own. First encodings, then one ill-formed configuration for each check of `Config.WellFormed`,
then vectors of one step each on E1. Last, the witnesses: for every obligation with hypotheses one
theorem showing states and operands that meet them, one for each clause, at boundary values. -/

namespace Sys2Proof.Tests

open Sys2Proof Sys2Proof.Machine

set_option maxRecDepth 20000

/-! ### Encodings (95_test_vectors.md §2.0, R102), bits written out from R91 and R92 -/

/-- CLASS 00, RES0 000, W 0, SZ 10. -/
theorem test_decode_mrd : decode (.bus 0b00000010 0x90000000 0) = .ok (.mrd .four 0x90000000) := by decide

/-- CLASS 00, RES0 000, W 1, SZ 11. -/
theorem test_decode_mwr :
    decode (.bus 0b00000111 0x80002818 0x0123456789ABCDEF) =
      .ok (.mwr .eight 0x80002818 0x0123456789ABCDEF) := by decide

/-- CLASS 01, RES0 000, W 0, SZ 01. -/
theorem test_decode_crd : decode (.bus 0b01000001 0xC0000002 0) = .ok (.crd .two 0xC0000002) := by decide

/-- CLASS 01, RES0 000, W 1, SZ 00. -/
theorem test_decode_cwr : decode (.bus 0b01000100 0xC0000013 0x90) = .ok (.cwr .one 0xC0000013 0x90) := by
  decide

/-- CLASS 10, RES0 0000, SIG 00, 01, 10. -/
theorem test_decode_sig :
    decode (.signal 0b10000000) = .ok .sigVsync ∧ decode (.signal 0b10000001) = .ok .sigFullscreen ∧
    decode (.signal 0b10000010) = .ok .sigQuit := by decide

/-- The reserved bytes of §2.0, on the port they name. -/
theorem test_decode_reserved :
    (∀ b ∈ [0x08, 0x10, 0x20, 0x38, 0x3F, 0x48, 0x7F, 0xC0, 0xC2, 0xFF],
      decode (.bus b 0 0) = .error (.reserved b)) ∧
    (∀ b ∈ [0x83, 0x84, 0xBF, 0xC0, 0xC2, 0xFF], decode (.signal b) = .error (.reserved b)) := by decide

/-- The two wrong-port rows of §2.0. -/
theorem test_decode_wrong_port :
    decode (.bus 0x80 0 0) = .error (.wrongPort 0x80) ∧
    decode (.signal 0x02) = .error (.wrongPort 0x02) := by decide

/-- A `Decode` table word of eight bits: the operands above it are 0. -/
theorem test_table_word_short : decodeTableWord 8 0x46 = some (.cwr .four 0 0) := by decide

/-- Row 5 of program P1, all 136 bits: wdata, addr, cmd. -/
theorem test_table_word_long :
    decodeTableWord 136 0x00000000CAFEF00D000000009000040006 =
      some (.mwr .four 0x90000400 0xCAFEF00D) := by decide

/-- The table's words have no reserved instruction. -/
theorem test_table_word_reserved : decodeTableWord 8 0x83 = none := by decide

/-- The word presented to the machine is the next transaction and runs. -/
theorem test_withFetchWord :
    step (State.reset.withFetchWord 8 0x80) = exec .sigVsync State.reset := rfl

/-! ### Well-formedness: each check refuses a configuration that fails it (R11) -/

theorem test_refuse_flat_size :
    ¬ Config.WellFormed { Config.e1 with flat := [⟨⟨0xE0000000, 0⟩, 0⟩] } :=
  fun h => absurd h.flat_size (by decide)

theorem test_refuse_flat_disjoint :
    ¬ Config.WellFormed { Config.e1 with flat := [⟨⟨0xE0000000, 2⟩, 0⟩, ⟨⟨0xE0000001, 1⟩, 1⟩] } :=
  fun h => absurd h.flat_disjoint (by simp [AddrRange.Disjoint])

theorem test_refuse_flat_window :
    ¬ Config.WellFormed { Config.e1 with flat := [⟨⟨0xC000FFFF, 1⟩, 0⟩] } :=
  fun h => absurd (h.flat_window ⟨⟨0xC000FFFF, 1⟩, 0⟩ (by decide)) (by simp [AddrRange.Disjoint, Config.e1])

theorem test_refuse_window_size :
    ¬ Config.WellFormed { Config.e1 with cfgWindow := ⟨0xC0000000, 0⟩ } :=
  fun h => absurd h.window_size (by decide)

theorem test_refuse_route_attached : ¬ Config.WellFormed { Config.e1 with cfgRoute := fun _ => some 7 } :=
  fun h => absurd (h.route_attached 0 7 rfl) (by decide)

theorem test_refuse_attached_once : ¬ Config.WellFormed { Config.e1 with bridges := [[0, 1], [1]] } :=
  fun h => absurd h.attached_once (by decide)

theorem test_refuse_dc_attached : ¬ Config.WellFormed { Config.e1 with dc := 7 } :=
  fun h => absurd h.dc_attached (by decide)

theorem test_refuse_dev_size : ¬ Config.WellFormed { Config.e1 with devSize := fun _ => 0 } :=
  fun h => absurd h.dev_size (by decide)

theorem test_refuse_rf_power : ¬ Config.WellFormed { Config.e1 with rfSize := 0x100004 } :=
  fun h => absurd h.rf_power (by decide)

theorem test_refuse_rf_size : ¬ Config.WellFormed { Config.e1 with rfSize := 2 } :=
  fun h => absurd h.rf_size (by decide)

theorem test_refuse_rf_scale : ¬ Config.WellFormed { Config.e1 with rfScale := 2 } :=
  fun h => absurd h.rf_scale (by decide)

theorem test_refuse_override_index :
    ¬ Config.WellFormed { Config.e1 with overrides := [(0xA07, 0x02000000), (0x40000, 1)] } :=
  fun h => absurd h.override_index (by decide)

theorem test_refuse_override_keys :
    ¬ Config.WellFormed { Config.e1 with overrides := [(0xA07, 0x02000000), (0xA07, 1)] } :=
  fun h => absurd h.override_keys (by decide)

theorem test_refuse_override_status :
    ¬ Config.WellFormed { Config.e1 with overrides := [(0xA07, 0x01000000)] } :=
  fun h => absurd h.override_status (by decide)

theorem test_refuse_strap_index :
    ¬ Config.WellFormed { Config.e1 with straps := #v[(0x40000, 0), (1, 0), (2, 0), (3, 0)] } :=
  fun h => absurd h.strap_index (by decide)

theorem test_refuse_strap_agree :
    ¬ Config.WellFormed { Config.e1 with straps := #v[(0, 0), (1, 0), (2, 0), (2, 1)] } :=
  fun h => absurd (h.strap_agree (2, 0) (by simp) (2, 1) (by simp) 0 (by decide) 0 (by decide) rfl)
    (by decide)

theorem test_refuse_width_pos : ¬ Config.WellFormed { Config.e1 with width := 0 } :=
  fun h => absurd h.width_pos (by decide)

theorem test_refuse_width_tiles : ¬ Config.WellFormed { Config.e1 with width := 48 } :=
  fun h => absurd h.width_tiles (by decide)

theorem test_refuse_height_pos : ¬ Config.WellFormed { Config.e1 with height := 0 } :=
  fun h => absurd h.height_pos (by decide)

theorem test_refuse_fb_size :
    ¬ Config.WellFormed { Config.e1 with fbWindow := ⟨0x10000000, 0xFFF⟩ } :=
  fun h => absurd h.fb_size (by decide)

/-! ### Vectors on E1, one step each -/

/-- Fresh E1. -/
def fresh : State := State.init Config.e1

/-- Fresh E1 in another mode of the production loop. -/
def inMode (m : Mode) : State := { fresh with mode := m }

/-- Fresh E1 with these inputs before it. -/
def withInputs (s : State) (l : List Input) : State := { s with inputs := l }

/-- A field of the next state, if there is one. -/
def field {α : Type} (f : State → α) : Host.Outcome State Fault Refusal → Option α
  | .next s => some (f s)
  | .fault _ => none
  | .refused _ => none

/-- What a command on E1 reads. -/
def reads (i : Instr) (s : State) : Option (List Data) := field State.rdata (execIn Config.e1 i s)

/-- D-1: the override. -/
theorem test_D1 : reads (.mrd .four 0x8000281C) fresh = some [0x02000000] := by decide

/-- RF-11: eight bytes from the last register wrap to RF[0]. -/
theorem test_RF11 :
    reads (.mrd .eight 0x800FFFFC) { fresh with rf := [(0, 0xAA)] } = some [0x000000AA00000000] := by decide

/-- RF-12: eight bytes written at the last register wrap to RF[0]. -/
theorem test_RF12 :
    field State.rf (execIn Config.e1 (.mwr .eight 0x800FFFFC 0x1122334455667788) fresh) =
      some [(0, 0x44), (1, 0x33), (2, 0x22), (3, 0x11), (0xFFFFC, 0x88), (0xFFFFD, 0x77), (0xFFFFE, 0x66),
        (0xFFFFF, 0x55)] := by decide

/-- D-23: a memory write inside the window programs a BAR. -/
theorem test_D23 :
    field State.cs (execIn Config.e1 (.mwr .four 0xC0000010 0x90000000) fresh) =
      some [(0x13, 0x90)] := by decide

/-- C-8: eight configuration bytes from offset 0xFF. -/
theorem test_C8 : reads (.crd .eight 0xC00000FF) fresh = some [0x0000000123ABCD00] := by decide

/-- C-9: the wrap stays inside the USB function's space. -/
theorem test_C9 : reads (.crd .four 0xC00001FE) fresh = some [0x11110000] := by decide

/-- C-13: a configuration write that wraps over the Vendor ID. -/
theorem test_C13 :
    field State.cs (execIn Config.e1 (.cwr .four 0xC00000FE 0x11223344) fresh) =
      some [(0x00, 0x22), (0x01, 0x11), (0xFE, 0x44), (0xFF, 0x33)] := by decide

/-- C-12: an unrouted configuration write is dropped. -/
theorem test_C12 : field State.cs (execIn Config.e1 (.cwr .four 0xC0000210 1) fresh) = some [] := by decide

/-- P4 rows 2 and 3: signals queue in order. -/
theorem test_P4_vsync :
    field State.pending (execIn Config.e1 .sigVsync (inMode .running)) = some [.vsync] := by decide

theorem test_P4_fullscreen :
    field State.pending (execIn Config.e1 .sigFullscreen
      { inMode .running with pending := [.vsync] }) = some [.vsync, .fullscreen] := by decide

/-- PL-16: a stopped loop queues nothing. -/
theorem test_PL16_quit :
    field State.pending (execIn Config.e1 .sigQuit (inMode .stopped)) = some [] := by decide

/-- PL-15: two toggles cancel, the quit stops. -/
theorem test_PL15 :
    (let t := poll { inMode .running with pending := [.vsync, .quit, .vsync] }
     (t.vsync, t.pending, t.mode)) = (false, [], .stopped) := by decide

/-- PL-2 and PL-3: both answers of the presentation boundary. -/
theorem test_PL2_PL3 :
    (acquireStep Config.e1 fresh).mode = .running ∧
    (acquireStep { Config.e1 with surfaceAcquired := fun _ => false } fresh).mode = .failed := by decide

/-- B1 to B4. -/
theorem test_B :
    isAddressMapped Config.e1 fresh 0 0x80000000 = true ∧
    isAddressMapped Config.e1 fresh 0 0x7FFFFFFF = false ∧
    isAddressMapped Config.e1 fresh 0 0x80100000 = true ∧
    isAddressMapped Config.e1 fresh 0 0x80100001 = false := by decide

/-- RF-15 and RF-16. -/
theorem test_RF15_RF16 :
    dcRegIndex Config.e1 0x8000281C = 0xA07 ∧ dcRegOffset Config.e1 0x8000281C = 0x281C ∧
    dcRegIndex Config.e1 0x901FFFFC = 0x3FFFF := by decide

/-- §2.5: rows (4, 0), (5, 3), (0, 8), (31, 31), (33, 33), (640, 360) and (1279, 719), and T-U1. -/
theorem test_tile :
    tileOffset 1280 16 = 32 ∧ tileOffset 1280 15380 = 308 ∧ tileOffset 1280 40960 = 1152 ∧
    tileOffset 1280 158844 = 3964 ∧ tileOffset 1280 169092 = 167956 ∧
    tileOffset 1280 1845760 = 1885312 ∧ tileOffset 1280 3686396 = 3766140 ∧
    tileOffset 1280 7 = 4 := by decide

/-- The same rows back. -/
theorem test_untile :
    untileOffset 1280 308 = 15380 ∧ untileOffset 1280 1152 = 40960 ∧ untileOffset 1280 3964 = 158844 ∧
    untileOffset 1280 1885312 = 1845760 := by decide

/-- PL-7 and PL-8: source and destination of (0, 31) and (31, 31). -/
theorem test_PL7_PL8 :
    pixelSource Config.e1 0 31 = 0x10000F90 ∧ pixelDest Config.e1 0 31 = 0 ∧
    pixelSource Config.e1 31 31 = 0x10000F7C ∧ pixelDest Config.e1 31 31 = 0x07C := by decide

/-- PL-5 on a frame of one row: pixel (4, 0) shows bytes 20 21 22 23. -/
theorem test_PL5 :
    ((renderFrame { Config.e1 with height := 1 } (memByte Config.e1 fresh)
      (List.replicate 128 0)).drop 16).take 4 = [0x20, 0x21, 0x22, 0x23] := by decide

/-! ### Witnesses -/

/-- E1 as a block. -/
def e1Block : Block := ⟨Config.e1, Config.e1_wellFormed⟩

/-- Reset, with this input next. -/
def ready (i : Input) : State := withInputs State.reset [i]

theorem witness_StepRunsTheDecodedCommand :
    (ready (.command (.bus 0x02 0xFFFFFFFFFFFFFFFF 0))).inputs =
      .command (.bus 0x02 0xFFFFFFFFFFFFFFFF 0) :: [] ∧
    decode (.bus 0x02 0xFFFFFFFFFFFFFFFF 0) = .ok (.mrd .four 0xFFFFFFFFFFFFFFFF) := ⟨rfl, by decide⟩

theorem witness_ReservedAndWrongPortRefused :
    ((ready (.command (.bus 0x08 0 0))).inputs = .command (.bus 0x08 0 0) :: [] ∧
      decodeCmd 0x08 = none) ∧
    ((ready (.command (.signal 0x83))).inputs = .command (.signal 0x83) :: [] ∧ decodeCmd 0x83 = none) ∧
    ((ready (.command (.bus 0x80 0 0))).inputs = .command (.bus 0x80 0 0) :: [] ∧
      decodeCmd 0x80 = some (.signal .vsync)) ∧
    ((ready (.command (.signal 0x47))).inputs = .command (.signal 0x47) :: [] ∧
      decodeCmd 0x47 = some (.cwr .eight) ∧ ∀ sig, Command.cwr .eight ≠ .signal sig) :=
  ⟨⟨rfl, by decide⟩, ⟨rfl, by decide⟩, ⟨rfl, by decide⟩, ⟨rfl, by decide, by simp⟩⟩

theorem witness_DecodeAndEncodeAgree :
    decode (.bus 0x03 0xFFFFFFFFFFFFFFFF 0xFFFFFFFFFFFFFFFF) = .ok (.mrd .eight 0xFFFFFFFFFFFFFFFF) ∧
    decode (.bus 0x47 0 0xFFFFFFFFFFFFFFFF) = .ok (.cwr .eight 0 0xFFFFFFFFFFFFFFFF) ∧
    decode (.signal 0x82) = .ok .sigQuit := by decide

/-- Offset 8 is no byte of a configuration access of 8 bytes at 0; `P_RF_SIZE` is no register-file byte. -/
theorem witness_MemoryWriteFrame :
    Memory.rising 0 State.reset.cs = true ∧ Memory.rising 0 State.reset.rf = true ∧
    (∀ k < bytes .eight, ¬ (inRange Config.block.cfg.cfgWindow 0 = true ∧
      Config.block.cfg.cfgRoute 0 = some 0 ∧ (8 : BitVec 8) = BitVec.ofNat 8 ((0 : Addr).toNat + k))) ∧
    (∀ k < bytes .eight, ¬ (inRange Config.block.cfg.cfgWindow 0 = false ∧
      firstClaimant Config.block.cfg State.reset 0 = some Config.block.cfg.dc ∧
      Config.block.cfg.rfSize = dcRegKey Config.block.cfg 0 k)) := by
  refine ⟨rfl, rfl, ?_, ?_⟩
  · intro k hk h
    exact absurd h.2.2 ((by decide : ∀ k < bytes .eight,
      (8 : BitVec 8) ≠ BitVec.ofNat 8 ((0 : Addr).toNat + k)) k hk)
  · intro k _ h
    have h4 := Config.block.wf.rf_size
    have := Nat.mod_lt (dcRegOffset Config.block.cfg 0 + k) (show 0 < Config.block.cfg.rfSize by omega)
    have he := h.2.2
    unfold dcRegKey at he
    omega

theorem witness_ConfigurationWriteFrame :
    Memory.rising 0 State.reset.cs = true ∧
    (∀ k < bytes .eight, ¬ (Config.block.cfg.cfgRoute 0xFF = some 0 ∧
      (7 : BitVec 8) = BitVec.ofNat 8 ((0xFF : Addr).toNat + k))) :=
  ⟨rfl, fun k hk h => absurd h.2 ((by decide : ∀ k < bytes .eight,
    (7 : BitVec 8) ≠ BitVec.ofNat 8 ((0xFF : Addr).toNat + k)) k hk)⟩

theorem witness_RegisterFileAtConstruction :
    ((0x103, 0x44440000) ∈ e1Block.cfg.straps.toList ∧ 3 < 4) ∧
    (∀ p ∈ e1Block.cfg.straps.toList, ∀ k < 4, 0x410 ≠ p.1 * e1Block.cfg.rfScale + k) := by
  have hs : e1Block.cfg.straps.toList =
      [(0x100, 0x11110000), (0x101, 0x22220000), (0x102, 0x33330000), (0x103, 0x44440000)] := rfl
  have h4 : e1Block.cfg.rfScale = 4 := rfl
  rw [hs, h4]
  refine ⟨⟨by simp, by decide⟩, ?_⟩
  simp only [List.forall_mem_cons]
  exact ⟨by decide, by decide, by decide, by decide, by simp⟩

theorem witness_FlatTargetsAreUnique :
    (∃ (hi : 0 < e1Block.cfg.flat.length), inRange e1Block.cfg.flat[0].range 0xE0000FFF = true) ∧
    (∃ r ∈ e1Block.cfg.flat, inRange r.range 0xE0000000 = true) :=
  ⟨⟨by decide, by decide⟩, ⟨⟨0xE0000000, 0x1000⟩, 0⟩, List.mem_singleton.2 rfl, by decide⟩

/-- The first and the last address of the window. -/
theorem witness_WindowAccessIsConfigurationAccess :
    inRange Config.e1.cfgWindow 0xC0000000 = true ∧ inRange Config.e1.cfgWindow 0xC000FFFF = true := by
  decide

/-- D-16 and D-18: the last address of the display controller's BAR0 and of the USB function's. -/
theorem witness_FirstClaimantGetsTheAccess :
    (inRange Config.e1.cfgWindow 0x80100000 = false ∧ Config.e1.bridges.flatten = [] ++ 0 :: [1] ∧
      isAddressMapped Config.e1 fresh 0 0x80100000 = true ∧ 0 = Config.e1.dc) ∧
    (inRange Config.e1.cfgWindow 0x80101000 = false ∧ Config.e1.bridges.flatten = [0] ++ 1 :: [] ∧
      (∀ g ∈ [0], isAddressMapped Config.e1 fresh g 0x80101000 = false) ∧
      isAddressMapped Config.e1 fresh 1 0x80101000 = true ∧ 1 ≠ Config.e1.dc) := by decide

/-- D-10 and D-11: the first and the last address of the flat range. -/
theorem witness_FlatRangesComeAfterBars :
    ⟨⟨0xE0000000, 0x1000⟩, 0⟩ ∈ e1Block.cfg.flat ∧ ∀ a ∈ [(0xE0000000 : Addr), 0xE0000FFF],
      (0xE0000000 : BitVec 64).toNat ≤ a.toNat ∧
      a.toNat < (0xE0000000 : BitVec 64).toNat + (0x1000 : BitVec 64).toNat ∧
      ∀ f ∈ e1Block.cfg.functions, isAddressMapped e1Block.cfg fresh f a = false := by
  refine ⟨List.mem_singleton.2 rfl, ?_⟩
  intro a ha
  fin_cases ha <;> exact ⟨by decide, by decide, by decide⟩

/-- D-8, D-12, D-15, D-19 and D-20: just past the window, the flat range and the BARs, and the top. -/
theorem witness_UnmappedReadsZeroAndDropsWrites :
    ∀ a ∈ [(0xC0010000 : Addr), 0xE0001000, 0x00100001, 0x80101001, 0xFFFFFFFFFFFFFFFF],
      inRange Config.e1.cfgWindow a = false ∧
      (∀ f ∈ Config.e1.functions, isAddressMapped Config.e1 fresh f a = false) ∧
      (∀ r ∈ Config.e1.flat, inRange r.range a = false) := by
  intro a ha
  fin_cases ha <;> exact ⟨by decide, by decide, by decide⟩

/-- C-10 and C-11. -/
theorem witness_UnroutedConfigurationAccess :
    Config.e1.cfgRoute 0xC0000200 = none ∧ Config.e1.cfgRoute 0x12345600 = none := by decide

theorem witness_ConfigurationReadReturnsTheBytes :
    Config.e1.cfgRoute 0xC00000FF = some 0 ∧ 7 < bytes .eight ∧ bytes .four ≤ 4 := by decide

theorem witness_ConfigurationWriteStoresTheLanes :
    Config.e1.cfgRoute 0xC00000FE = some 0 ∧ Memory.rising 0 fresh.cs = true ∧ 3 < bytes .four ∧
    ((0 : FnId) = 0 → ∀ k < bytes .four, (2 : BitVec 8) ≠ BitVec.ofNat 8 ((0xC00000FE : Addr).toNat + k)) :=
  by decide

theorem witness_ConfigurationReadBack :
    Config.e1.cfgRoute 0xC00000FF = some 0 ∧ Memory.rising 0 fresh.cs = true ∧
    ∃ t, execIn Config.e1 (.cwr .eight 0xC00000FF 0x1122334455667788) fresh = .next t :=
  ⟨by decide, by decide, _, rfl⟩

/-- BAR0 and BAR5. -/
theorem witness_BarReprogrammingIsLive :
    (Config.e1.cfgRoute 0xC0000010 = some 0 ∧ (0xC0000010 : Addr).toNat % 256 = 0x10 + 4 * 0) ∧
    (Config.e1.cfgRoute 0xC0000124 = some 1 ∧ (0xC0000124 : Addr).toNat % 256 = 0x10 + 4 * 5) ∧
    Memory.rising 0 fresh.cs = true := by decide

theorem witness_RegisterIndexMasksTheAddress :
    (0x800FFFFF : Addr).toNat / 4 % (e1Block.cfg.rfSize / 4) =
      (0x000FFFFC : Addr).toNat / 4 % (e1Block.cfg.rfSize / 4) := by decide

theorem witness_RegisterReadOrSentinel :
    (dcRegIndex e1Block.cfg 0x8000281F, 0x02000000) ∈ e1Block.cfg.overrides ∧
    (∀ v, (dcRegIndex e1Block.cfg 0x80002818, v) ∉ e1Block.cfg.overrides) ∧
    overrideAt Config.e1 (dcRegIndex Config.e1 0x8000281F) = some 0x02000000 ∧
    (overrideAt Config.e1 (dcRegIndex Config.e1 0x80002818) = none ∧ 7 < bytes .eight ∧
      bytes .one ≤ 1) := by
  have h : dcRegIndex e1Block.cfg 0x80002818 = 0xA06 := by decide
  exact ⟨by decide, fun v => by rw [h]; simp [e1Block, Config.e1], by decide, by decide⟩

theorem witness_RegisterWriteStoresTheLanes :
    Memory.rising 0 fresh.rf = true ∧ 7 < bytes .eight ∧
    ∀ k < bytes .eight, 4 ≠ (dcRegOffset e1Block.cfg 0x800FFFFC + k) % e1Block.cfg.rfSize :=
  ⟨rfl, by decide, by decide⟩

theorem witness_StatusRegisterReadsItsSentinel :
    inRange e1Block.cfg.cfgWindow 0x8000281C = false ∧
    firstClaimant e1Block.cfg fresh 0x8000281C = some e1Block.cfg.dc ∧
    dcRegIndex e1Block.cfg 0x8000281C = 0xA07 ∧ e1Block.cfg.rfScale = 4 := by decide

/-- A strap register, and the last register. -/
theorem witness_RegisterReadBack :
    ∀ a ∈ [(0x80000400 : Addr), 0x800FFFFC], inRange e1Block.cfg.cfgWindow a = false ∧
      firstClaimant e1Block.cfg fresh a = some e1Block.cfg.dc ∧
      overrideAt e1Block.cfg (dcRegIndex e1Block.cfg a) = none ∧ Memory.rising 0 fresh.rf = true := by
  intro a ha
  fin_cases ha <;> exact ⟨by decide, by decide, by decide, rfl⟩

/-- The wdata of §2.0's last line. -/
theorem witness_UnusedWriteLanesAffectNothing :
    (∀ k < bytes .one, lane 0xFFFFFFFFFFFFFF5A k = lane 0x5A k) ∧ (0xFFFFFFFFFFFFFF5A : Data) ≠ 0x5A := by
  decide

theorem witness_ReadsAreRepeatable :
    (∃ t, execIn Config.e1 (.mrd .eight 0x800FFFFC) fresh = .next t ∧ t.draws = fresh.draws) ∧
    (∃ t, execIn Config.e1 (.crd .eight 0xC00000FF) fresh = .next t) :=
  ⟨⟨_, rfl, by decide⟩, _, rfl⟩

/-- Steps that change `CS` (by CWR and by MWR), `RF` and main memory. -/
theorem witness_OnlyNamedCommandsWriteEachMemory :
    (∃ t, stepIn Config.e1 (withInputs fresh [.command (.bus 0x46 0xC0000010 0x90000000)]) = .next t ∧
      t.cs ≠ fresh.cs) ∧
    (∃ t, stepIn Config.e1 (withInputs fresh [.command (.bus 0x06 0xC0000010 0x90000000)]) = .next t ∧
      t.cs ≠ fresh.cs) ∧
    (∃ t, stepIn Config.e1 (withInputs fresh [.command (.bus 0x06 0x80000400 0xCAFEF00D)]) = .next t ∧
      t.rf ≠ fresh.rf) ∧
    (∃ t, stepIn Config.e1 (withInputs fresh [.memory [(0x10000000, 0xFF)]]) = .next t ∧
      t.mem ≠ fresh.mem) :=
  ⟨⟨_, rfl, by decide⟩, ⟨_, rfl, by decide⟩, ⟨_, rfl, by decide⟩, ⟨_, rfl, by decide⟩⟩

theorem witness_CommandsLeaveTheLoopAlone :
    ∃ t, execIn Config.e1 .sigQuit fresh = .next t ∧ t.pending ≠ fresh.pending :=
  ⟨_, rfl, by decide⟩

theorem witness_PollAppliesEverySignalOnce :
    Signal.quit ∈ { inMode .running with pending := [.vsync, .quit, .vsync] }.pending := by decide

/-- A turn that is the next input and carries writes, and the loop's own turn. -/
theorem witness_AcquireStepObeysTheBoundary :
    fresh.mode = .starting ∧ Memory.rising 0 fresh.mem = true ∧
    loopIsNext (withInputs fresh [.loop [(0x10000000, 0xFF)], .loop []]) [(0x10000000, 0xFF)] [.loop []] ∧
    loopIsNext fresh [] [] := ⟨rfl, rfl, .inl rfl, .inr ⟨rfl, rfl, rfl⟩⟩

theorem witness_DormantLoopStaysDormant :
    ∀ m ∈ [Mode.off, .stopped, .failed],
      ((inMode m).mode = .off ∨ (inMode m).mode = .stopped ∨ (inMode m).mode = .failed) ∧
      ∃ t, stepIn Config.e1 (withInputs (inMode m) [.command (.signal 0x80)]) = .next t := by
  intro m hm
  fin_cases hm
  · exact ⟨.inl rfl, _, rfl⟩
  · exact ⟨.inr (.inl rfl), _, rfl⟩
  · exact ⟨.inr (.inr rfl), _, rfl⟩

/-- The corners of the display. -/
theorem witness_FrameShowsEveryPixel :
    (inMode .running).mode = .running ∧ Memory.rising 0 (inMode .running).mem = true ∧
    loopIsNext (withInputs (inMode .running) [.loop [(0x10000000, 0xFF)]]) [(0x10000000, 0xFF)] [] ∧
    loopIsNext (inMode .running) [] [] ∧
    (inMode .running).buf.length = Config.e1.width * Config.e1.height * 4 ∧
    (0 < Config.e1.width ∧ 0 < Config.e1.height) ∧ (31 < Config.e1.width ∧ 31 < Config.e1.height) :=
  ⟨rfl, rfl, .inl rfl, .inr ⟨rfl, rfl, rfl⟩, by simp [inMode, fresh, State.init], by decide, by decide⟩

theorem witness_QuietFrameShowsMainMemory :
    (inMode .running).mode = .running ∧ loopIsNext (withInputs (inMode .running) [.loop []]) [] [] ∧
    loopIsNext (inMode .running) [] [] :=
  ⟨rfl, .inl rfl, .inr ⟨rfl, rfl, rfl⟩⟩

theorem witness_PixelOrderIsUnobservable : (pixels Config.e1).reverse.Perm (pixels Config.e1) :=
  List.reverse_perm _

theorem witness_FrameDoesNotDependOnTheOldBuffer :
    (inMode .running).buf.length = Config.e1.width * Config.e1.height * 4 ∧
    ((inMode .running).buf.map fun _ => (0xFF : Byte)).length = Config.e1.width * Config.e1.height * 4 := by
  constructor <;> simp [inMode, fresh, State.init]

/-- Two memories that differ just below and just past the window. -/
theorem witness_FrameReadsOnlyTheWindow :
    ∀ j < e1Block.cfg.fbWindow.size.toNat,
      (fun a => if a = 0x0FFFFFFF ∨ a = 0x10001000 then (1 : Byte) else 0)
        (e1Block.cfg.fbWindow.base.toNat + j) = 0 := by
  intro j hj
  have hb : e1Block.cfg.fbWindow.base.toNat = 0x10000000 := by decide
  have hs : e1Block.cfg.fbWindow.size.toNat = 0x1000 := by decide
  rw [hs] at hj
  rw [hb]
  exact if_neg (by omega)

theorem witness_OracleAnswersOldOrNew :
    ∀ w ∈ [((0x10000000 : Addr), (0xFF : Byte))], w.1.toNat ≠ 0x10000001 := by
  simp

/-- A pick that takes the new value at one address and the old one everywhere else. -/
theorem witness_EveryTearingIsPossible :
    ∀ a, (fun a => if a = 0x10000000 then (0xFF : Byte) else memByte Config.e1 fresh a) a =
        memByte Config.e1 fresh a ∨
      ∃ w ∈ [((0x10000000 : Addr), (0xFF : Byte))], w.1.toNat = a ∧
        (fun a => if a = 0x10000000 then (0xFF : Byte) else memByte Config.e1 fresh a) a = w.2 := by
  intro a
  by_cases h : a = 0x10000000
  · exact .inr ⟨_, List.mem_singleton.2 rfl, by simp [h], if_pos h⟩
  · exact .inl (if_neg h)

/-- A next state, a fault and a refusal. -/
theorem witness_TogglesAffectNoValue :
    (∃ t, stepIn Config.e1 fresh = .next t) ∧ (∃ r, stepIn Config.e1 (inMode .off) = .fault r) ∧
    (∃ r, stepIn Config.e1 (withInputs fresh [.command (.signal 0x83)]) = .refused r) :=
  ⟨⟨_, rfl⟩, ⟨_, rfl⟩, ⟨_, rfl⟩⟩

theorem witness_QuitStopsAfterTheNextFrame :
    (inMode .running).mode = .running ∧
    (withInputs (inMode .running) [.command (.signal 0x82), .loop []]).inputs =
      .command (.signal 0x82) :: .loop [] :: [] := ⟨rfl, rfl⟩

theorem witness_OutputsOnlyGrow : ∃ t, stepIn Config.e1 (inMode .running) = .next t := ⟨_, rfl⟩

/-- A quit arrives first; then the loop takes every turn. -/
def quitRunEvent : Nat → Input
  | 0 => .command (.signal 0x82)
  | _ + 1 => .loop []

/-- The states of that run on E1, from construction on. -/
def quitRunState : Nat → State
  | 0 => fresh
  | 1 => post .quit fresh
  | k + 2 => loopTurn Config.e1 [] (quitRunState (k + 1))

/-- The quit is presented from the start, and nothing else ever. -/
def quitRunWaiting : Port → Nat → List Transaction
  | .signal, 0 => [.signal 0x82]
  | .signal, _ + 1 => []
  | .bus, _ => []

/-- A weakly fair run of E1. -/
def quitRun : Run Config.e1 where
  state := quitRunState
  event := quitRunEvent
  waiting := quitRunWaiting
  steps k := by
    cases k <;> rfl
  presented k t h := by
    cases k with
    | zero => injection h with h; subst h; rfl
    | succ k => cases h
  kept p k := ⟨[], by cases p <;> cases k <;> rfl⟩

/-- Starting, then Running with the quit pending; at first the quit waits on its port. -/
theorem witness_FairRunsMakeProgress :
    weaklyFair quitRun ∧ (quitRun.state 1).mode = .starting ∧ Signal.quit ∈ (quitRun.state 1).pending ∧
    (quitRun.state 2).mode = .running ∧ Signal.quit ∈ (quitRun.state 2).pending ∧
    (quitRun.waiting .signal 0).head? = some (.signal 0x82) ∧ decode (.signal 0x82) = .ok .sigQuit := by
  refine ⟨⟨fun k h => ?_, fun k _ => ?_⟩, by decide, by decide, by decide, by decide, rfl, by decide⟩
  · obtain ⟨p, t, i, hw, _⟩ := h (k + 1) (Nat.le_succ k)
    cases p <;> cases hw
  · exact ⟨k + 1, Nat.le_succ k, [], rfl⟩

/-- A run exists. -/
theorem witness_MachinePerformsEveryPartOfARun : Nonempty (Run Config.e1) := ⟨quitRun⟩

theorem witness_TileIndexPermutesTenBits :
    interleave 31 31 ^^^ ((31 &&& 8) <<< 2) = interleave 63 63 ^^^ ((63 &&& 8) <<< 2) := by decide

theorem witness_TileOffsetStaysInThePaddedFrame : 1280 % 32 = 0 ∧ 1279 < 1280 ∧ 719 < 720 := by decide

theorem witness_TileTransformIsABijection :
    (1280 % 32 = 0 ∧ 1279 < 1280 ∧ tileOffset 1280 (stdOffset 1280 1279 735) / 4 =
      tileOffset 1280 (stdOffset 1280 1279 735) / 4) ∧ 735 < 32 * 23 ∧ 942079 < 1280 * (32 * 23) ∧
      { Config.e1 with width := 48 }.width % 32 ≠ 0 := by decide

theorem witness_UntileUndoesTile : 1280 % 32 = 0 ∧ 1279 < 1280 := by decide

/-- The state after construction of E1 has the invariant, and steps. -/
theorem witness_EveryStepKeepsTheInvariant :
    State.Inv e1Block.cfg fresh ∧ ∃ t, stepIn e1Block.cfg fresh = .next t := by
  refine ⟨?_, _, rfl⟩
  constructor <;> decide

/-- A state of the machine itself: a signal has arrived right after reset. -/
theorem witness_EveryStepKeepsTheInvariant_machine :
    State.Inv Config.block.cfg (ready (.command (.signal 0x80))) ∧
    ∃ t, step (ready (.command (.signal 0x80))) = .next t := by
  refine ⟨?_, _, rfl⟩
  have hm : (ready (.command (.signal 0x80))).mode =
      if Config.block.cfg.displayEnabled then .starting else .off := rfl
  have hp : (ready (.command (.signal 0x80))).presented = [] := rfl
  constructor
  case off_iff => rw [hm]; split <;> simp_all
  case stopped_frame => rw [hm]; split <;> simp
  case log => rw [hm]; split <;> rfl
  case buf_length => simp [ready, withInputs, State.reset, State.init]
  case no_frame => exact fun _ => hp
  case no_pending => exact fun _ => rfl
  case frame_length => rw [hp]; simp
  all_goals first | rfl | simp [ready, withInputs, State.reset, State.init]

end Sys2Proof.Tests
end

section
/-! Scope: the machine is the opaque block, flat targets are unique, every step keeps the invariant. -/

namespace Sys2Proof.Machine

/-! ### The machine is the opaque block -/

/-- The meaning of a command on the machine is the parametric one at `Config.block` (R20). -/
theorem exec_eq_execIn (i : Instr) (s : State) : exec i s = execIn Config.block.cfg i s := by
  cases i <;> rfl

/-- The machine's step is the parametric one at `Config.block` (R20). -/
theorem step_eq_stepIn (s : State) : step s = stepIn Config.block.cfg s := by
  have hex : exec = execIn Config.block.cfg := funext₂ exec_eq_execIn
  rw [step, stepIn, hex]

/-! ### Ranges -/

/-- The half-open range test over naturals (R13, R110, R116). -/
theorem inRange_iff {r : AddrRange} {a : Addr} :
    inRange r a = true ↔ r.base.toNat ≤ a.toNat ∧ a.toNat < r.base.toNat + r.size.toNat := by
  simp [inRange]

/-- Disjoint ranges contain no common address. -/
theorem inRange_eq_false_of_disjoint {r t : AddrRange} (h : r.Disjoint t) {a : Addr}
    (ha : inRange r a = true) : inRange t a = false := by
  rw [inRange_iff] at ha
  rw [← Bool.not_eq_true, inRange_iff]
  unfold AddrRange.Disjoint at h
  omega

/-- Of two positions of `P_FLAT`, the earlier one's addresses are not the later one's (R11 (a)). -/
theorem flat_inRange_eq_false_of_lt {c : Config} (hc : c.WellFormed) {a : Addr} {i j : Nat}
    (hi : i < c.flat.length) (hj : j < c.flat.length) (hij : i < j)
    (ha : inRange c.flat[i].range a = true) : inRange c.flat[j].range a = false :=
  inRange_eq_false_of_disjoint (List.pairwise_iff_getElem.1 hc.flat_disjoint i j hi hj hij) ha

/-! ### The invariant and the operations

Each operation keeps the invariant. The fields it does not write are those of the old state, so each
lemma speaks of the written fields only. -/

variable {c : Config} {s : State}

/-- The invariant does not speak of the schedule. -/
theorem inv_inputs (h : State.Inv c s) (l : List Input) : State.Inv c { s with inputs := l } :=
  { h with }

/-- Returning a read's value keeps the invariant (R90). -/
theorem inv_respond {r : Data × State} (h : State.Inv c r.2) : State.Inv c (respond r) :=
  { h with }

/-- An opaque read only takes a draw (R14). -/
theorem inv_opaqueRead (h : State.Inv c s) (d : Device) (a : Addr) (n : Size) :
    State.Inv c (opaqueRead c s d a n).2 :=
  { h with }

/-- A configuration write to an attached function keeps the invariant (R167). -/
theorem inv_fnConfigWrite (h : State.Inv c s) {f : FnId} (hf : f ∈ c.functions) (o : BitVec 8) (v : Data)
    (n : Size) : State.Inv c (fnConfigWrite c s f o v n) :=
  { h with
    cs_wf := Memory.wf_writeLanes h.cs_wf _ _ _
    cs_attached := by
      intro p hp
      rcases Memory.mem_writeLanes hp with ⟨k, _, hk⟩ | hp
      · rwa [hk, csKey_div]
      · exact h.cs_attached p hp }

/-- A routed configuration write names an attached function (R11 (c), R115). -/
theorem inv_cfgWrite (hc : c.WellFormed) (h : State.Inv c s) (a : Addr) (v : Data) (n : Size) :
    State.Inv c (cfgWrite c s a v n) := by
  unfold cfgWrite
  split
  case h_1 => exact h
  case h_2 f hf => exact inv_fnConfigWrite h (hc.route_attached a f hf) _ v n

/-- A register write stays inside the register file (R171). -/
theorem inv_dcRegWrite (hc : c.WellFormed) (h : State.Inv c s) (a : Addr) (v : Data) (n : Size) :
    State.Inv c (dcRegWrite c s a v n) :=
  { h with
    rf_wf := Memory.wf_writeLanes h.rf_wf _ _ _
    rf_bound := by
      intro p hp
      rcases Memory.mem_writeLanes hp with ⟨k, _, hk⟩ | hp
      · have hpos : 0 < c.rfSize := Nat.lt_of_lt_of_le (by decide) hc.rf_size
        rw [hk]
        exact dcRegKey_lt hpos a k
      · exact h.rf_bound p hp }

/-- The other agents' writes keep main memory canonical and inside 2^64 (R60, R68). -/
theorem inv_writeMainMemory (h : State.Inv c s) (ws : List (Addr × Byte)) :
    State.Inv c (writeMainMemory c s ws) :=
  { h with
    mem_wf := Memory.wf_foldl_write (fun w : Addr × Byte => w.1.toNat) Prod.snd ws h.mem_wf
    mem_bound := by
      intro p hp
      rcases Memory.mem_foldl_write (fun w : Addr × Byte => w.1.toNat) Prod.snd ws hp with ⟨w, _, hw⟩ | hp
      · rw [hw]
        exact w.1.isLt
      · exact h.mem_bound p hp }

/-- A posted signal is queued only while the loop listens, which Off and Stopped do not (R231). -/
theorem inv_post (h : State.Inv c s) (sig : Signal) : State.Inv c (post sig s) := by
  rw [post_eq]
  exact { h with
    no_pending := by
      intro hm
      have hl : listening s.mode = false := by
        rcases hm with hm | hm <;> exact congrArg listening hm
      simpa [hl] using h.no_pending hm }

/-! ### The invariant and the commands -/

/-- A memory read changes the draw counter at most (R111). -/
theorem inv_memRead (h : State.Inv c s) (a : Addr) (n : Size) : State.Inv c (memRead c s a n).2 := by
  rw [memRead_eq]
  split
  case isTrue => exact h
  case isFalse =>
    split
    case h_1 f _ =>
      split
      case isTrue => exact h
      case isFalse => exact inv_opaqueRead h (.function f) a n
    case h_2 =>
      split
      case h_1 r _ => exact inv_opaqueRead h (.flat r.dev) a n
      case h_2 => exact h

/-- A memory write is a configuration write, a register write or nothing (R112). -/
theorem inv_memWrite (hc : c.WellFormed) (h : State.Inv c s) (a : Addr) (v : Data) (n : Size) :
    State.Inv c (memWrite c s a v n) := by
  rw [memWrite_eq]
  split
  case isTrue => exact inv_cfgWrite hc h a v n
  case isFalse =>
    split
    case h_1 =>
      split
      case isTrue => exact inv_dcRegWrite hc h a v n
      case isFalse => exact h
    case h_2 => exact h

/-- Every command keeps the invariant. -/
theorem inv_execIn (hc : c.WellFormed) (h : State.Inv c s) {i : Instr} {t : State}
    (ht : execIn c i s = .next t) : State.Inv c t := by
  rcases execIn_cases ht with ⟨n, a, -, rfl⟩ | ⟨n, a, v, -, rfl⟩ | ⟨n, a, -, rfl⟩ |
    ⟨n, a, v, -, rfl⟩ | ⟨-, rfl⟩ | ⟨-, rfl⟩ | ⟨-, rfl⟩
  · exact inv_respond (inv_memRead h a n)
  · exact inv_memWrite hc h a v n
  · exact inv_respond h
  · exact inv_cfgWrite hc h a v n
  · exact inv_post h .vsync
  · exact inv_post h .fullscreen
  · exact inv_post h .quit

/-! ### The invariant and the production loop -/

/-- A loop in another mode than Off means that display production is enabled (R32, R220). -/
theorem displayEnabled_of_mode_ne_off (h : State.Inv c s) (hm : s.mode ≠ .off) :
    c.displayEnabled ≠ false :=
  mt h.off_iff.2 hm

/-- Acquiring the surface starts the loop without a frame, or fails with its line in the log (R221). -/
theorem inv_acquireStep (h : State.Inv c s) (hm : s.mode = .starting) : State.Inv c (acquireStep c s) := by
  have hon : c.displayEnabled ≠ false := displayEnabled_of_mode_ne_off h (by simp [hm])
  have hframes : s.presented = [] := h.no_frame (.inr (.inl hm))
  have hlog : s.opLog = [] := by simpa [hm] using h.log
  unfold acquireStep
  -- Running with an empty log, or Failed with the one line: neither is Off or Stopped.
  split
  all_goals exact { h with
    off_iff := by simp [hon]
    no_frame := fun _ => hframes
    stopped_frame := by simp
    no_pending := by simp
    log := by simp [hlog] }

/-- A frame step appends a frame of the buffer's length, empties the queue and stays Running or stops
(R223, R226, R232). -/
theorem inv_frameStep (h : State.Inv c s) (hm : s.mode = .running) (ws : List (Addr × Byte)) :
    State.Inv c (frameStep c ws s) := by
  have hon : c.displayEnabled ≠ false := displayEnabled_of_mode_ne_off h (by simp [hm])
  have hlog : s.opLog = [] := by simpa [hm] using h.log
  have hmem := inv_writeMainMemory h ws
  have hlen : (renderFrame c (oracleByte c s ws) s.buf).length = c.width * c.height * 4 := by
    rw [length_renderFrame, h.buf_length]
  obtain ⟨v, f, hf⟩ := frameStep_cases c ws s
  rw [hf, hm]
  exact { h with
    mem_wf := hmem.mem_wf
    mem_bound := hmem.mem_bound
    buf_length := hlen
    frame_length := by
      intro g hg
      rcases List.mem_append.1 hg with hg | hg
      · exact h.frame_length g hg
      · rw [List.mem_singleton.1 hg, hlen]
    off_iff := by split <;> simp [hon]
    no_frame := by split <;> simp
    stopped_frame := by simp
    no_pending := fun _ => rfl
    log := by split <;> simp [hlog] }

/-- Every turn of the production loop keeps the invariant (R237). -/
theorem inv_loopTurn (h : State.Inv c s) (ws : List (Addr × Byte)) : State.Inv c (loopTurn c ws s) := by
  unfold loopTurn
  split
  case h_1 hm => exact inv_writeMainMemory (inv_acquireStep h hm) ws
  case h_2 hm => exact inv_frameStep h hm ws
  all_goals exact inv_writeMainMemory h ws

/-- Every step of a well-formed block keeps the invariant (R256). -/
theorem inv_stepIn (hc : c.WellFormed) (h : State.Inv c s) {t : State} (ht : stepIn c s = .next t) :
    State.Inv c t := by
  rcases stepIn_cases ht with ⟨-, -, rfl⟩ | ⟨_, i, rest, -, -, hx⟩ | ⟨ws, rest, -, rfl⟩ | ⟨ws, rest, -, rfl⟩
  · exact inv_loopTurn h []
  · exact inv_execIn hc (inv_inputs h rest) hx
  · exact inv_loopTurn (inv_inputs h rest) ws
  · exact inv_writeMainMemory (inv_inputs h rest) ws

/-! ### The obligations -/

/-- Settles O60: `inv_stepIn`, and the machine's step is `stepIn` at the block it runs. -/
theorem everyStepKeepsTheInvariant : Obligations.EveryStepKeepsTheInvariant := by
  refine ⟨fun b s t h ht => inv_stepIn b.wf h ht, fun s t h ht => ?_⟩
  rw [step_eq_stepIn] at ht
  exact inv_stepIn Config.block.wf h ht

/-- Settles O15: an address in two positions of `P_FLAT` is in none of two different ones, as the
earlier excludes the later. -/
theorem flatTargetsAreUnique : Obligations.FlatTargetsAreUnique := by
  refine fun b a => ⟨fun i j hi hj hai haj => ?_, fun r hr ha => ?_⟩
  · rcases Nat.lt_trichotomy i j with hij | hij | hij
    · rw [flat_inRange_eq_false_of_lt b.wf hi hj hij hai] at haj
      cases haj
    · exact hij
    · rw [flat_inRange_eq_false_of_lt b.wf hj hi hij haj] at hai
      cases hai
  · exact inRange_eq_false_of_disjoint (b.wf.flat_window r hr) ha

/-- Settles O1: the two equations, and the register file as `Config.decidedBlock` carries it. -/
theorem machineIsTheOpaqueBlock : Obligations.MachineIsTheOpaqueBlock :=
  ⟨exec_eq_execIn, step_eq_stepIn, Config.decidedBlock.rf_size, Config.decidedBlock.rf_scale⟩

end Sys2Proof.Machine
end

section
/-! State: construction, configuration space and register file, what each step may write, the frame. -/

namespace Sys2Proof.Machine

/-! ### Construction -/

/-- A byte that the strap seeds give is a lane of one of them (R29). -/
theorem strapByte_eq_some {scale : Nat} {seeds : List (Nat × BitVec 32)} {j : Nat} {b : Byte}
    (h : strapByte scale seeds j = some b) :
    ∃ p ∈ seeds, ∃ k < 4, j = p.1 * scale + k ∧ b = lane32 p.2 k := by
  induction seeds with
  | nil => cases h
  | cons p seeds ih =>
    simp only [strapByte] at h
    split at h
    case h_1 hb =>
      obtain ⟨q, hq, hj⟩ := ih (hb.trans h)
      exact ⟨q, List.mem_cons_of_mem _ hq, hj⟩
    case h_2 =>
      split at h
      case isTrue hj => exact ⟨p, by simp, j - p.1 * scale, by omega, by omega, (Option.some.inj h).symm⟩
      case isFalse => cases h

/-- The strap seeds give every byte that one of them covers (R29). -/
theorem exists_strapByte_of_mem {scale : Nat} {seeds : List (Nat × BitVec 32)} {p : Nat × BitVec 32}
    (hp : p ∈ seeds) {k : Nat} (hk : k < 4) : ∃ b, strapByte scale seeds (p.1 * scale + k) = some b := by
  induction seeds with
  | nil => cases hp
  | cons q seeds ih =>
    simp only [strapByte]
    split
    case h_1 b _ => exact ⟨b, rfl⟩
    case h_2 hnone =>
      rcases List.mem_cons.1 hp with rfl | hp
      · exact ⟨_, if_pos ⟨by omega, by omega⟩⟩
      · obtain ⟨b, hb⟩ := ih hp
        rw [hnone] at hb
        cases hb

/-- A byte that no strap seed covers is given by none (R29). -/
theorem strapByte_eq_none {scale : Nat} {seeds : List (Nat × BitVec 32)} {j : Nat}
    (h : ∀ p ∈ seeds, ∀ k < 4, j ≠ p.1 * scale + k) : strapByte scale seeds j = none := by
  rw [Option.eq_none_iff_forall_ne_some]
  intro b hb
  obtain ⟨p, hp, k, hk, hj, -⟩ := strapByte_eq_some hb
  exact h p hp k hk hj

/-- At construction every configuration-space byte is its dump byte (R27). -/
@[simp] theorem csByte_init (c : Config) (f : FnId) (o : BitVec 8) :
    csByte c (State.init c) f o = c.dump f o := by
  simp [csByte, Memory.read, csReset]

/-- At construction a register-file byte is its strap byte, or else `P_RF_INIT` (R29). -/
@[simp] theorem rfByte_init (c : Config) (j : Nat) :
    rfByte c (State.init c) j = (strapByte c.rfScale c.straps.toList j).getD (c.rfInit j) :=
  rfl

/-! ### Configuration space -/

/-- A data value of n lanes depends on these lanes only. -/
theorem dataOfLanes_congr {n : Size} {b b' : Nat → Byte} (h : ∀ k < bytes n, b k = b' k) :
    dataOfLanes n b = dataOfLanes n b' := by
  refine data_ext fun k _ => ?_
  rw [lane_dataOfLanes, lane_dataOfLanes]
  split
  case isTrue hk => exact h k hk
  case isFalse => rfl

/-- A CRD of a routed address returns its function's bytes (R113, R144). -/
theorem execIn_crd_of_route {c : Config} {a : Addr} {f : FnId} (h : c.cfgRoute a = some f) (n : Size)
    (s : State) : execIn c (.crd n a) s =
      .next { s with rdata := s.rdata ++ [fnConfigRead c s f (cfgOffset a) n] } := by
  simp only [execIn, execCrdIn, cfgRead, h, bridgeCfgRead, respond]

/-- A CWR of a routed address writes its function's configuration space (R114, R145). -/
theorem execIn_cwr_of_route {c : Config} {a : Addr} {f : FnId} (h : c.cfgRoute a = some f) (n : Size)
    (v : Data) (s : State) :
    execIn c (.cwr n a v) s = .next (fnConfigWrite c s f (cfgOffset a) v n) := by
  simp only [execIn, execCwrIn, cfgWrite, h, bridgeCfgWrite]

/-- Reading back what was written returns the written lanes (R23, R166, R167). -/
theorem fnConfigRead_fnConfigWrite {c : Config} {s : State} (h : Memory.rising 0 s.cs = true) (f : FnId)
    (o : BitVec 8) (v : Data) (n : Size) :
    fnConfigRead c (fnConfigWrite c s f o v n) f o n = dataOfLanes n (lane v) :=
  dataOfLanes_congr fun _ hk => csByte_fnConfigWrite_lane h f o v n hk

/-! ### BARs -/

/-- Byte k of BAR i is byte k of an access at the BAR's offset (R24, R166). -/
theorem cfgByteOffset_barOffset (i k : Nat) : cfgByteOffset (barOffset i 0) k = barOffset i k := by
  simp only [cfgByteOffset, barOffset, ← BitVec.ofNat_add, Nat.add_zero]

/-- The six BARs share no byte (R24). -/
theorem barOffset_inj {i j k l : Nat} (hi : i < 6) (hj : j < 6) (hk : k < 4) (hl : l < 4)
    (h : barOffset i k = barOffset j l) : i = j := by
  have := congrArg BitVec.toNat h
  simp only [barOffset, BitVec.toNat_ofNat] at this
  omega

/-- The address of an access to BAR i (R24, R144). -/
theorem cfgOffset_eq_barOffset {a : Addr} {i : Nat} (h : a.toNat % 256 = 0x10 + 4 * i) :
    cfgOffset a = barOffset i 0 := by
  apply BitVec.eq_of_toNat_eq
  simp only [cfgOffset, barOffset, BitVec.toNat_setWidth, BitVec.toNat_ofNat]
  omega

/-- Four lanes, little-endian, are the low 32 bits (R14). -/
theorem leNat_four_lanes (v : Data) : leNat ((List.range 4).map (lane v)) = v.toNat % 2 ^ 32 := by
  simp only [List.range_succ, List.range_zero, List.nil_append, List.cons_append, List.map_cons,
    List.map_nil, leNat, lane_toNat]
  omega

/-- A BAR is its four bytes (R25). -/
theorem bar_congr {c : Config} {t : State} {f : FnId} {i : Nat} {b : Nat → Byte}
    (h : ∀ k < 4, csByte c t f (barOffset i k) = b k) : bar c t f i = leNat ((List.range 4).map b) :=
  congrArg leNat (List.map_congr_left fun k hk => h k (List.mem_range.1 hk))

/-- A 4-byte write to BAR i gives it the written 32-bit value (R25, R168). -/
theorem bar_fnConfigWrite_same {c : Config} {s : State} (h : Memory.rising 0 s.cs = true) (f : FnId)
    (i : Nat) (v : Data) :
    bar c (fnConfigWrite c s f (barOffset i 0) v .four) f i = v.toNat % 2 ^ 32 := by
  rw [← leNat_four_lanes]
  refine bar_congr fun k hk => ?_
  rw [← cfgByteOffset_barOffset i k]
  exact csByte_fnConfigWrite_lane h f _ v .four hk

/-- A 4-byte write to BAR i leaves every other BAR of every function alone (R25, R168). -/
theorem bar_fnConfigWrite_other {c : Config} {s : State} (h : Memory.rising 0 s.cs = true) {f g : FnId}
    {i j : Nat} (v : Data) (hi : i < 6) (hj : j < 6) (hne : g ≠ f ∨ j ≠ i) :
    bar c (fnConfigWrite c s f (barOffset i 0) v .four) g j = bar c s g j := by
  refine bar_congr fun k hk => csByte_fnConfigWrite_other h f _ v .four (hne.imp_right fun hji l hl he => ?_)
  rw [cfgByteOffset_barOffset] at he
  exact hji (barOffset_inj hj hi hk hl he)

/-- The BAR test: some BAR's inclusive range holds the address (R161). -/
theorem isAddressMapped_iff {c : Config} {s : State} {f : FnId} {a : Addr} :
    isAddressMapped c s f a = true ↔
      ∃ i < 6, bar c s f i ≤ a.toNat ∧ a.toNat ≤ bar c s f i + c.devSize f := by
  simp [isAddressMapped]

/-- Where only BAR i changed, a function claims by its new value or by one of the others (R161). -/
theorem isAddressMapped_of_bar_changed {c : Config} {s t : State} {f : FnId} {i v : Nat} (hi : i < 6)
    (hv : bar c t f i = v) (hother : ∀ j < 6, j ≠ i → bar c t f j = bar c s f j) (a : Addr) :
    isAddressMapped c t f a = true ↔
      (v ≤ a.toNat ∧ a.toNat ≤ v + c.devSize f) ∨
      ∃ j < 6, j ≠ i ∧ bar c s f j ≤ a.toNat ∧ a.toNat ≤ bar c s f j + c.devSize f := by
  rw [isAddressMapped_iff]
  constructor
  · rintro ⟨j, hj, hin⟩
    by_cases hji : j = i
    · rw [hji, hv] at hin
      exact .inl hin
    · rw [hother j hj hji] at hin
      exact .inr ⟨j, hj, hji, hin⟩
  · rintro (hin | ⟨j, hj, hji, hin⟩)
    · exact ⟨i, hi, by rwa [hv]⟩
    · exact ⟨j, hj, by rwa [hother j hj hji]⟩

/-! ### Register file -/

/-- In a table that has each key once, looking a key up finds exactly its entry. -/
theorem lookup_eq_some_iff_mem {β : Type} {l : List (Nat × β)} (hl : (l.map Prod.fst).Nodup) {i : Nat}
    {v : β} : l.lookup i = some v ↔ (i, v) ∈ l := by
  induction l with
  | nil => simp
  | cons p l ih =>
    obtain ⟨j, w⟩ := p
    obtain ⟨hj, hl⟩ := List.nodup_cons.1 hl
    by_cases hij : i = j
    · subst hij
      have hv : (i, v) ∉ l := fun hv => hj (List.mem_map.2 ⟨_, hv, rfl⟩)
      simp [hv, eq_comm]
    · have hbeq : (i == j) = false := by simpa using hij
      simp [List.lookup, hbeq, hij, ih hl]

/-- `overrideAt` is the table `P_OVERRIDES` (R172; log entry 17). -/
theorem overrideAt_eq_some_iff {c : Config} (hc : c.WellFormed) {i : Nat} {v : BitVec 32} :
    overrideAt c i = some v ↔ (i, v) ∈ c.overrides :=
  lookup_eq_some_iff_mem hc.override_keys

/-- An index without an entry has no override (R172). -/
theorem overrideAt_eq_none {c : Config} (hc : c.WellFormed) {i : Nat} (h : ∀ v, (i, v) ∉ c.overrides) :
    overrideAt c i = none :=
  Option.eq_none_iff_forall_ne_some.2 fun v hv => h v ((overrideAt_eq_some_iff hc).1 hv)

/-- An override replaces the whole read result (R172). -/
theorem dcRegRead_of_override {c : Config} {a : Addr} {v : BitVec 32}
    (h : overrideAt c (dcRegIndex c a) = some v) (s : State) (n : Size) :
    dcRegRead c s a n = v.setWidth 64 := by
  simp only [dcRegRead, h]

/-- Without an override a read is the generic copy (R170). -/
theorem dcRegRead_of_no_override {c : Config} {a : Addr} (h : overrideAt c (dcRegIndex c a) = none)
    (s : State) (n : Size) : dcRegRead c s a n = dataOfLanes n fun k => rfByte c s (dcRegKey c a k) := by
  simp only [dcRegRead, h]

/-- The lanes of the generic copy, and zero above the size (R170). -/
theorem lane_dcRegRead_of_no_override {c : Config} {a : Addr}
    (h : overrideAt c (dcRegIndex c a) = none) (s : State) (n : Size) :
    (∀ k < bytes n, lane (dcRegRead c s a n) k = rfByte c s ((dcRegOffset c a + k) % c.rfSize)) ∧
    ∀ k, bytes n ≤ k → lane (dcRegRead c s a n) k = 0 := by
  rw [dcRegRead_of_no_override h]
  refine ⟨fun k hk => ?_, fun k hk => ?_⟩
  · rw [lane_dataOfLanes, if_pos hk]
    rfl
  · rw [lane_dataOfLanes, if_neg (by omega)]

/-! ### What a step may change -/

/-- Everything that command `i` can change in state `s`, one constructor for each kind of effect, with what
it takes of the command where a memory or the queue is written (R42). -/
inductive CommandEffect (c : Config) (s : State) (i : Instr) : State → Prop
  /-- A read returns a value, and may take a draw (R90). -/
  | returned (v : Data) (d : Nat) : CommandEffect c s i { s with rdata := s.rdata ++ [v], draws := d }
  /-- A write that stores nothing (R115, R117, R164). -/
  | dropped : CommandEffect c s i s
  /-- A CWR, or an MWR inside the window, writes the configuration spaces (R112, R114). -/
  | configured (m : Memory)
      (h : ∃ n a v, i = .cwr n a v ∨ (i = .mwr n a v ∧ inRange c.cfgWindow a = true)) :
      CommandEffect c s i { s with cs := m }
  /-- An MWR outside the window that the display controller claims writes the register file (R164). -/
  | registered (m : Memory)
      (h : ∃ n a v, i = .mwr n a v ∧ inRange c.cfgWindow a = false ∧ isAddressMapped c s c.dc a = true) :
      CommandEffect c s i { s with rf := m }
  /-- A signal writes the queue (R231). -/
  | posted (q : List Signal) (h : i = .sigVsync ∨ i = .sigFullscreen ∨ i = .sigQuit) :
      CommandEffect c s i { s with pending := q }

/-- A memory read changes the draw counter at most (R111). -/
theorem memRead_snd (c : Config) (s : State) (a : Addr) (n : Size) :
    ∃ d, (memRead c s a n).2 = { s with draws := d } := by
  rw [memRead_eq]
  split
  case isTrue => exact ⟨_, rfl⟩
  case isFalse => split <;> split <;> exact ⟨_, rfl⟩

/-- A configuration write changes the configuration spaces at most (R114, R115). -/
theorem cfgWrite_cases (c : Config) (s : State) (a : Addr) (v : Data) (n : Size) :
    ∃ m, cfgWrite c s a v n = { s with cs := m } := by
  unfold cfgWrite
  split
  case h_1 => exact ⟨s.cs, rfl⟩
  case h_2 => exact ⟨_, rfl⟩

/-- A function that answers an address claims it (R110). -/
theorem isAddressMapped_of_firstClaimant {c : Config} {s : State} {a : Addr} {f : FnId}
    (h : firstClaimant c s a = some f) : isAddressMapped c s f a = true :=
  List.find?_some (p := fun f => isAddressMapped c s f a) h

/-- A memory write is a configuration write, a register write or nothing (R112). -/
theorem commandEffect_memWrite (c : Config) (s : State) (n : Size) (a : Addr) (v : Data) :
    CommandEffect c s (.mwr n a v) (memWrite c s a v n) := by
  rw [memWrite_eq]
  split
  case isTrue hw =>
    obtain ⟨m, hm⟩ := cfgWrite_cases c s a v n
    rw [hm]
    exact .configured m ⟨n, a, v, .inr ⟨rfl, hw⟩⟩
  case isFalse hw =>
    split
    case h_1 f hf =>
      split
      case isTrue hdc =>
        subst hdc
        exact .registered _ ⟨n, a, v, rfl, Bool.not_eq_true _ ▸ hw, isAddressMapped_of_firstClaimant hf⟩
      case isFalse => exact .dropped
    case h_2 => exact .dropped

/-- Every command has one of these effects. -/
theorem commandEffect_of_execIn {c : Config} {i : Instr} {s t : State} (h : execIn c i s = .next t) :
    CommandEffect c s i t := by
  rcases execIn_cases h with ⟨n, a, rfl, rfl⟩ | ⟨n, a, v, rfl, rfl⟩ | ⟨n, a, rfl, rfl⟩ |
    ⟨n, a, v, rfl, rfl⟩ | ⟨rfl, rfl⟩ | ⟨rfl, rfl⟩ | ⟨rfl, rfl⟩
  · obtain ⟨d, hd⟩ := memRead_snd c s a n
    rw [respond, hd]
    exact .returned _ d
  · exact commandEffect_memWrite c s n a v
  · exact .returned _ s.draws
  · obtain ⟨m, hm⟩ := cfgWrite_cases c s a v n
    rw [hm]
    exact .configured m ⟨n, a, v, .inl rfl⟩
  · rw [post_eq]
    exact .posted _ (.inl rfl)
  · rw [post_eq]
    exact .posted _ (.inr (.inl rfl))
  · rw [post_eq]
    exact .posted _ (.inr (.inr rfl))

/-- `l'` is `l` with at most one element appended. -/
def AppendsAtMostOne {α : Type} (l l' : List α) : Prop := ∃ x, l' = l ++ x ∧ x.length ≤ 1

/-- A list that stays grows by nothing. -/
theorem AppendsAtMostOne.refl {α : Type} (l : List α) : AppendsAtMostOne l l :=
  ⟨[], (List.append_nil l).symm, Nat.zero_le 1⟩

/-- A list with one more element. -/
theorem AppendsAtMostOne.one {α : Type} (l : List α) (x : α) : AppendsAtMostOne l (l ++ [x]) :=
  ⟨[x], rfl, Nat.le_refl 1⟩

/-- A turn of the loop leaves the configuration spaces, the register file and the read results alone, and
main memory takes only the other agents' writes (R68, R238). -/
theorem loopTurn_frame (c : Config) (ws : List (Addr × Byte)) (s : State) :
    (loopTurn c ws s).cs = s.cs ∧ (loopTurn c ws s).rf = s.rf ∧ (loopTurn c ws s).rdata = s.rdata ∧
    (loopTurn c ws s).mem = (writeMainMemory c s ws).mem := by
  unfold loopTurn
  split
  case h_1 =>
    unfold acquireStep
    split <;> exact ⟨rfl, rfl, rfl, rfl⟩
  case h_2 =>
    obtain ⟨v, f, h⟩ := frameStep_cases c ws s
    rw [h]
    exact ⟨rfl, rfl, rfl, rfl⟩
  all_goals exact ⟨rfl, rfl, rfl, rfl⟩

/-- A turn of the loop presents at most one frame and logs at most one line (R221, R226). -/
theorem loopTurn_outputs (c : Config) (ws : List (Addr × Byte)) (s : State) :
    AppendsAtMostOne s.presented (loopTurn c ws s).presented ∧
    AppendsAtMostOne s.opLog (loopTurn c ws s).opLog := by
  unfold loopTurn
  split
  case h_1 =>
    unfold acquireStep
    split
    case isTrue => exact ⟨.refl _, .refl _⟩
    case isFalse => exact ⟨.refl _, .one _ _⟩
  case h_2 =>
    obtain ⟨v, f, h⟩ := frameStep_cases c ws s
    rw [h]
    exact ⟨.one _ _, .refl _⟩
  all_goals exact ⟨.refl _, .refl _⟩

/-- A command presents no frame, logs no line and returns at most one value (R42, R90). -/
theorem CommandEffect.outputs {c : Config} {s t : State} {i : Instr} (h : CommandEffect c s i t) :
    AppendsAtMostOne s.presented t.presented ∧ AppendsAtMostOne s.rdata t.rdata ∧
    AppendsAtMostOne s.opLog t.opLog := by
  cases h with
  | returned v d => exact ⟨.refl _, .one _ _, .refl _⟩
  | dropped | configured | registered | posted => exact ⟨.refl _, .refl _, .refl _⟩

/-! ### The frame's buffer -/

/-- A pixel leaves every byte outside its slot alone (R224). -/
theorem getElem?_putPixel_other {buf : List Byte} {dst i : Nat} (p : Pixel) (h : i / 4 * 4 ≠ dst)
    (hdst : dst % 4 = 0) : (putPixel buf dst p)[i]? = buf[i]? := by
  simp only [putPixel]
  rw [List.getElem?_set_ne (by omega), List.getElem?_set_ne (by omega), List.getElem?_set_ne (by omega),
    List.getElem?_set_ne (by omega)]

/-- Byte k of a pixel's slot holds byte k of the pixel (R224). -/
theorem getElem?_putPixel_slot {buf : List Byte} {dst k : Nat} (p : Pixel) (hk : k < 4)
    (h : dst + k < buf.length) : (putPixel buf dst p)[dst + k]? = (Pixel.toList p)[k]? := by
  interval_cases k <;> simp [putPixel, Pixel.toList, List.getElem?_set] <;> omega

/-- The slots of the pixels are aligned (R200, R224). -/
theorem pixelDest_mod_four (c : Config) (x y : Nat) : pixelDest c x y % 4 = 0 :=
  Nat.mul_mod_left _ 4

/-- After a pixel step two buffers agree in a byte where they agreed before and in every byte of the
pixel's slot (R224). -/
theorem pixelStep_agree (c : Config) (rd : Nat → Byte) {buf buf' : List Byte} {i : Nat} (xy : Nat × Nat)
    (hi : i < buf.length) (hi' : i < buf'.length)
    (h : buf[i]? = buf'[i]? ∨ i / 4 * 4 = pixelDest c xy.1 xy.2) :
    (pixelStep c rd buf xy)[i]? = (pixelStep c rd buf' xy)[i]? := by
  unfold pixelStep
  by_cases hd : i / 4 * 4 = pixelDest c xy.1 xy.2
  · have hk : i % 4 < 4 := Nat.mod_lt _ (by decide)
    have hsplit : i = pixelDest c xy.1 xy.2 + i % 4 := by omega
    rw [hsplit] at hi hi' ⊢
    rw [getElem?_putPixel_slot _ (by omega) hi, getElem?_putPixel_slot _ (by omega) hi']
  · rw [getElem?_putPixel_other _ hd (pixelDest_mod_four c _ _),
      getElem?_putPixel_other _ hd (pixelDest_mod_four c _ _)]
    exact h.resolve_right hd

/-- After the steps of a list of pixels two buffers agree in a byte where they agreed before and in every
byte that one of the pixels fills. -/
theorem foldl_pixelStep_agree (c : Config) (rd : Nat → Byte) (l : List (Nat × Nat))
    {buf buf' : List Byte} {i : Nat} (hi : i < buf.length) (hi' : i < buf'.length)
    (h : buf[i]? = buf'[i]? ∨ ∃ xy ∈ l, i / 4 * 4 = pixelDest c xy.1 xy.2) :
    (l.foldl (pixelStep c rd) buf)[i]? = (l.foldl (pixelStep c rd) buf')[i]? := by
  induction l generalizing buf buf' with
  | nil => simpa using h
  | cons xy l ih =>
    refine ih (by simpa [pixelStep] using hi) (by simpa [pixelStep] using hi') ?_
    rcases h with h | ⟨p, hp, hd⟩
    · exact .inl (pixelStep_agree c rd xy hi hi' (.inl h))
    · rcases List.mem_cons.1 hp with rfl | hp
      · exact .inl (pixelStep_agree c rd p hi hi' (.inr hd))
      · exact .inr ⟨p, hp, hd⟩

/-- The display pixels (R223). -/
theorem mem_pixels {c : Config} {x y : Nat} : (x, y) ∈ pixels c ↔ x < c.width ∧ y < c.height := by
  simp [pixels, and_comm]

/-- Flipping keeps a row in the display (R225). -/
theorem flipRow_lt {c : Config} {y : Nat} (h : y < c.height) : flipRow c y < c.height := by
  simp only [flipRow]; omega

/-- Flipping a row twice gives the row (R225). -/
theorem flipRow_flipRow {c : Config} {y : Nat} (h : y < c.height) : flipRow c (flipRow c y) = y := by
  simp only [flipRow]; omega

/-- Every byte of the buffer lies in the slot of a display pixel (R223, R225). -/
theorem exists_pixelDest {c : Config} {i : Nat} (hi : i < c.width * c.height * 4) :
    ∃ xy ∈ pixels c, i / 4 * 4 = pixelDest c xy.1 xy.2 := by
  have hslot : i / 4 < c.width * c.height := by omega
  have hrow : i / 4 / c.width < c.height := Nat.div_lt_of_lt_mul hslot
  have hcol : i / 4 % c.width < c.width := Nat.mod_lt _ (Nat.pos_of_lt_mul_right hslot)
  refine ⟨(i / 4 % c.width, flipRow c (i / 4 / c.width)), mem_pixels.2 ⟨hcol, flipRow_lt hrow⟩, ?_⟩
  simp only [pixelDest, stdOffset, flipRow_flipRow hrow, Nat.div_add_mod']

/-! ### The obligations -/

/-- Settles O14: a covered byte is a lane of some seed, and all seeds of one byte agree. -/
theorem registerFileAtConstruction : Obligations.RegisterFileAtConstruction := by
  refine fun b => ⟨fun p hp k hk => ?_, fun j hj => ?_⟩
  · obtain ⟨x, hx⟩ := exists_strapByte_of_mem (scale := b.cfg.rfScale) hp hk
    obtain ⟨q, hq, l, hl, hkey, rfl⟩ := strapByte_eq_some hx
    rw [rfByte_init, hx]
    exact b.wf.strap_agree q hq p hp l hl k hk hkey.symm
  · rw [rfByte_init, strapByte_eq_none hj]
    rfl

/-- Settles O24, by `fnConfigRead_fnConfigWrite`. -/
theorem configurationReadBack : Obligations.ConfigurationReadBack := by
  intro c s t n a v f hf hr ht
  rw [execIn_cwr_of_route hf] at ht
  injection ht with ht
  subst ht
  rw [execIn_crd_of_route hf, fnConfigRead_fnConfigWrite hr]

/-- Settles O25: the write fills exactly the four bytes of BAR i, and routing reads the BARs live. -/
theorem barReprogrammingIsLive : Obligations.BarReprogrammingIsLive := by
  intro c s a v f i hf hi ha hr
  have hsame := bar_fnConfigWrite_same (c := c) hr f i v
  have hother : ∀ j < 6, j ≠ i → _ := fun j hj hji =>
    bar_fnConfigWrite_other (c := c) (f := f) (g := f) hr v hi hj (.inr hji)
  refine ⟨_, execIn_cwr_of_route hf .four v s, ?_⟩
  rw [cfgOffset_eq_barOffset ha]
  exact ⟨hsame, hother, fun g hg j hj => bar_fnConfigWrite_other hr v hi hj (.inl hg),
    isAddressMapped_of_bar_changed hi hsame hother⟩

/-- Settles O27: the table's entries are what `overrideAt` finds, and a read takes the sentinel it finds or
copies. -/
theorem registerReadOrSentinel : Obligations.RegisterReadOrSentinel := by
  refine ⟨fun b s a n => ⟨fun v hv => ?_, fun hno => ?_⟩, fun b i v => overrideAt_eq_some_iff b.wf,
    fun c s a n => ⟨fun v hv => dcRegRead_of_override hv s n, fun hno =>
      lane_dcRegRead_of_no_override hno s n⟩, by decide⟩
  · exact dcRegRead_of_override ((overrideAt_eq_some_iff b.wf).2 hv) s n
  · exact lane_dcRegRead_of_no_override (overrideAt_eq_none b.wf hno) s n

/-- Settles O34: of a command's effects one writes each memory, and the loop writes neither `CS` nor `RF`. -/
theorem onlyNamedCommandsWriteEachMemory : Obligations.OnlyNamedCommandsWriteEachMemory := by
  intro c s t ht
  rcases stepIn_cases ht with ⟨-, -, rfl⟩ | ⟨tr, i, rest, hin, hd, hx⟩ | ⟨ws, rest, hin, rfl⟩ |
    ⟨ws, rest, hin, rfl⟩
  · obtain ⟨hcs, hrf, -, hmem⟩ := loopTurn_frame c [] s
    exact ⟨absurd hcs, absurd hrf, absurd hmem⟩
  · cases commandEffect_of_execIn hx with
    | returned | dropped | posted => exact ⟨absurd rfl, absurd rfl, absurd rfl⟩
    | configured m h =>
      obtain ⟨n, a, v, h⟩ := h
      refine ⟨fun _ => ⟨tr, n, a, v, rest, hin, ?_⟩, absurd rfl, absurd rfl⟩
      rcases h with rfl | ⟨rfl, hw⟩
      · exact .inl hd
      · exact .inr ⟨hd, hw⟩
    | registered m h =>
      obtain ⟨n, a, v, rfl, hw, hmap⟩ := h
      exact ⟨absurd rfl, fun _ => ⟨tr, n, a, v, rest, hin, hd, hw, hmap⟩, absurd rfl⟩
  · obtain ⟨hcs, hrf, -, -⟩ := loopTurn_frame c ws { s with inputs := rest }
    exact ⟨absurd hcs, absurd hrf, fun _ => ⟨ws, rest, .inl hin⟩⟩
  · exact ⟨absurd rfl, absurd rfl, fun _ => ⟨ws, rest, .inr hin⟩⟩

/-- Settles O35: no effect of a command is on the loop's state but the queue, which only a signal writes. -/
theorem commandsLeaveTheLoopAlone : Obligations.CommandsLeaveTheLoopAlone := by
  intro c i s t ht
  cases commandEffect_of_execIn ht with
  | returned | dropped | configured | registered =>
    exact ⟨rfl, rfl, rfl, rfl, rfl, rfl, rfl, rfl, absurd rfl⟩
  | posted q h => exact ⟨rfl, rfl, rfl, rfl, rfl, rfl, rfl, rfl, fun _ => ⟨h, rfl, rfl, rfl, rfl⟩⟩

/-- Settles O42: every byte of the buffer lies in the slot of a pixel, which the frame fills. -/
theorem frameDoesNotDependOnTheOldBuffer : Obligations.FrameDoesNotDependOnTheOldBuffer := by
  intro c rd buf buf' hlen hlen'
  refine List.ext_getElem? fun i => ?_
  by_cases hi : i < c.width * c.height * 4
  · exact foldl_pixelStep_agree c rd (pixels c) (hlen ▸ hi) (hlen' ▸ hi) (.inr (exists_pixelDest hi))
  · rw [List.getElem?_eq_none (by rw [length_renderFrame]; omega),
      List.getElem?_eq_none (by rw [length_renderFrame]; omega)]

/-- Settles O50: what a command and what a turn of the loop append; the other agents append nothing. -/
theorem outputsOnlyGrow : Obligations.OutputsOnlyGrow := by
  intro c s t ht
  have hloop (ws : List (Addr × Byte)) (u : State) : AppendsAtMostOne u.rdata (loopTurn c ws u).rdata := by
    obtain ⟨-, -, hrdata, -⟩ := loopTurn_frame c ws u
    rw [hrdata]
    exact .refl _
  rcases stepIn_cases ht with ⟨-, -, rfl⟩ | ⟨tr, i, rest, -, -, hx⟩ | ⟨ws, rest, -, rfl⟩ |
    ⟨ws, rest, -, rfl⟩
  · obtain ⟨hframes, hlog⟩ := loopTurn_outputs c [] s
    exact ⟨hframes, hloop [] s, hlog⟩
  · exact (commandEffect_of_execIn hx).outputs
  · obtain ⟨hframes, hlog⟩ := loopTurn_outputs c ws { s with inputs := rest }
    exact ⟨hframes, hloop ws _, hlog⟩
  · exact ⟨AppendsAtMostOne.refl _, AppendsAtMostOne.refl _, AppendsAtMostOne.refl _⟩

/-- Settles O12: every field is the one `State.init` gives it. -/
theorem constructionState : Obligations.ConstructionState :=
  ⟨rfl, fun _ => ⟨rfl, rfl, rfl, rfl, rfl, by simp⟩⟩

/-- Settles O13, by `csByte_init`. -/
theorem configurationSpacesHoldTheirDumps : Obligations.ConfigurationSpacesHoldTheirDumps :=
  csByte_init

end Sys2Proof.Machine
end

section
/-! Memory: what reads return, what writes depend on, what a turn of the production loop does. -/

namespace Sys2Proof.Machine

/-! ### What a read returns -/

/-- A value whose lanes from the size on are zero (R67). -/
def FitsSize (n : Size) (v : Data) : Prop := ∀ k, bytes n ≤ k → lane v k = 0

/-- An access that the override table answers: outside the window, claimed first by the display
controller, at an index with an override (R110, R172). -/
def OverrideHit (c : Config) (s : State) (a : Addr) : Prop :=
  inRange c.cfgWindow a = false ∧ firstClaimant c s a = some c.dc ∧
    (overrideAt c (dcRegIndex c a)).isSome = true

/-- A value of n lanes fits its size. -/
theorem fitsSize_dataOfLanes (n : Size) (b : Nat → Byte) : FitsSize n (dataOfLanes n b) := by
  intro k hk
  rw [lane_dataOfLanes, if_neg (by omega)]

/-- Zero fits every size. -/
theorem fitsSize_zero (n : Size) : FitsSize n 0 := by
  intro k _
  simp [lane]

/-- A configuration read fits its size, routed or not (R115, R166). -/
theorem fitsSize_cfgRead (c : Config) (s : State) (a : Addr) (n : Size) :
    FitsSize n (cfgRead c s a n) := by
  unfold cfgRead
  split
  case h_1 => exact fitsSize_zero n
  case h_2 => exact fitsSize_dataOfLanes n _

/-- A register read fits its size, or hits an override (R170, R172). -/
theorem fitsSize_dcRegRead (c : Config) (s : State) (a : Addr) (n : Size) :
    FitsSize n (dcRegRead c s a n) ∨ (overrideAt c (dcRegIndex c a)).isSome = true := by
  cases h : overrideAt c (dcRegIndex c a) with
  | some v => exact .inr rfl
  | none => exact .inl (lane_dcRegRead_of_no_override h s n).2

/-- A memory read answers a value without a draw, or is a draw of an opaque device (R111). -/
theorem memRead_cases (c : Config) (s : State) (a : Addr) (n : Size) :
    (∃ v, memRead c s a n = (v, s) ∧ (FitsSize n v ∨ OverrideHit c s a)) ∨
    ∃ d, memRead c s a n = opaqueRead c s d a n := by
  rw [memRead_eq]
  split
  case isTrue => exact .inl ⟨_, rfl, .inl (fitsSize_cfgRead c s a n)⟩
  case isFalse hw =>
    split
    case h_1 f hf =>
      split
      case isTrue hdc =>
        subst hdc
        refine .inl ⟨_, rfl, (fitsSize_dcRegRead c s a n).imp_right fun ho => ?_⟩
        exact ⟨Bool.not_eq_true _ ▸ hw, hf, ho⟩
      case isFalse => exact .inr ⟨.function f, rfl⟩
    case h_2 =>
      split
      case h_1 r _ => exact .inr ⟨.flat r.dev, rfl⟩
      case h_2 => exact .inl ⟨0, rfl, .inl (fitsSize_zero n)⟩

/-- Everything an MRD can do: it returns one value and takes at most one draw (R70, R90, R111). -/
theorem execIn_mrd_cases (c : Config) (n : Size) (a : Addr) (s : State) :
    ∃ v d, execIn c (.mrd n a) s = .next { s with rdata := s.rdata ++ [v], draws := d } ∧
      (d = s.draws ∨ d = s.draws + 1) ∧ (FitsSize n v ∨ OverrideHit c s a) := by
  simp only [execIn, execMrdIn]
  rcases memRead_cases c s a n with ⟨v, hv, hfit⟩ | ⟨d, hd⟩
  · rw [hv]
    exact ⟨v, s.draws, rfl, .inl rfl, hfit⟩
  · rw [hd]
    exact ⟨_, s.draws + 1, rfl, .inr rfl, .inl (fitsSize_dataOfLanes n _)⟩

/-- A CRD returns what the configuration address reads as, and does nothing else (R113). -/
theorem execIn_crd (c : Config) (n : Size) (a : Addr) (s : State) :
    execIn c (.crd n a) s = .next { s with rdata := s.rdata ++ [cfgRead c s a n] } :=
  rfl

/-! ### What a read depends on -/

/-- A configuration read depends on the configuration spaces only (R113). -/
theorem cfgRead_congr {c : Config} {s t : State} (h : t.cs = s.cs) (a : Addr) (n : Size) :
    cfgRead c t a n = cfgRead c s a n := by
  simp only [cfgRead, bridgeCfgRead, fnConfigRead, csByte, h]

/-- A register read depends on the register file only (R170). -/
theorem dcRegRead_congr {c : Config} {s t : State} (h : t.rf = s.rf) (a : Addr) (n : Size) :
    dcRegRead c t a n = dcRegRead c s a n := by
  simp only [dcRegRead, rfByte, h]

/-- A memory read that takes no draw depends on configuration spaces and register file only (R70). -/
theorem memRead_congr {c : Config} {s t : State} {a : Addr} {n : Size}
    (hdraw : (memRead c s a n).2.draws = s.draws) (hcs : t.cs = s.cs) (hrf : t.rf = s.rf) :
    memRead c t a n = ((memRead c s a n).1, t) := by
  rw [memRead_eq] at hdraw
  rw [memRead_eq, memRead_eq, firstClaimant_congr hcs, cfgRead_congr hcs, dcRegRead_congr hrf]
  split
  case isTrue => rfl
  case isFalse hw =>
    rw [if_neg hw] at hdraw
    split
    case h_1 f hf =>
      rw [hf] at hdraw
      split
      case isTrue => rfl
      case isFalse hdc => simp [hdc] at hdraw
    case h_2 hf =>
      rw [hf] at hdraw
      split
      case h_1 r hr => simp [hr] at hdraw
      case h_2 => rfl

/-! ### What a write depends on -/

/-- A configuration write depends on lanes 0 to n − 1 of its data only (R95, R114). -/
theorem cfgWrite_congr {v w : Data} {n : Size} (h : ∀ k < bytes n, lane v k = lane w k) (c : Config)
    (s : State) (a : Addr) : cfgWrite c s a v n = cfgWrite c s a w n := by
  simp only [cfgWrite, bridgeCfgWrite, fnConfigWrite, Memory.writeLanes_congr h]

/-- A register write depends on lanes 0 to n − 1 of its data only (R95, R171). -/
theorem dcRegWrite_congr {v w : Data} {n : Size} (h : ∀ k < bytes n, lane v k = lane w k) (c : Config)
    (s : State) (a : Addr) : dcRegWrite c s a v n = dcRegWrite c s a w n := by
  simp only [dcRegWrite, Memory.writeLanes_congr h]

/-- A memory write depends on lanes 0 to n − 1 of its data only (R95, R112). -/
theorem memWrite_congr {v w : Data} {n : Size} (h : ∀ k < bytes n, lane v k = lane w k) (c : Config)
    (s : State) (a : Addr) : memWrite c s a v n = memWrite c s a w n := by
  rw [memWrite_eq, memWrite_eq, cfgWrite_congr h, dcRegWrite_congr h]

/-! ### Register read-back -/

/-- An MRD that the display controller answers (R110, R163). -/
theorem execIn_mrd_of_dc {c : Config} {s : State} {a : Addr} (hw : inRange c.cfgWindow a = false)
    (hf : firstClaimant c s a = some c.dc) (n : Size) :
    execIn c (.mrd n a) s = .next { s with rdata := s.rdata ++ [dcRegRead c s a n] } := by
  simp [execIn, execMrdIn, memRead_eq, hw, hf, respond]

/-- An MWR that the display controller answers (R110, R164). -/
theorem execIn_mwr_of_dc {c : Config} {s : State} {a : Addr} (hw : inRange c.cfgWindow a = false)
    (hf : firstClaimant c s a = some c.dc) (n : Size) (v : Data) :
    execIn c (.mwr n a v) s = .next (dcRegWrite c s a v n) := by
  simp [execIn, execMwrIn, memWrite_eq, hw, hf]

/-- Without an override, reading back what was written returns the written lanes (R170, R171). -/
theorem dcRegRead_dcRegWrite {c : Config} (hc : c.WellFormed) {s : State} {a : Addr}
    (ho : overrideAt c (dcRegIndex c a) = none) (h : Memory.rising 0 s.rf = true) (v : Data) (n : Size) :
    dcRegRead c (dcRegWrite c s a v n) a n = dataOfLanes n (lane v) := by
  have hsize : 8 ≤ c.rfSize := Nat.le_trans (by decide) hc.rf_large
  rw [dcRegRead_of_no_override ho]
  exact dataOfLanes_congr fun _ hk => rfByte_dcRegWrite_lane hsize h a v n hk

/-! ### The oracle -/

/-- The values that a byte holds while a frame is read: the old one and those written there (R79). -/
theorem mem_heldValues {c : Config} {s : State} {ws : List (Addr × Byte)} {a : Nat} {b : Byte} :
    b ∈ heldValues c s ws a ↔ b = memByte c s a ∨ ∃ w ∈ ws, w.1.toNat = a ∧ b = w.2 := by
  simp only [heldValues, List.mem_cons, List.mem_map, List.mem_filter, decide_eq_true_eq, and_assoc,
    eq_comm (a := b)]

/-- The oracle answers one of the values held (R79). -/
theorem oracleByte_mem_heldValues (c : Config) (s : State) (ws : List (Addr × Byte)) (a : Nat) :
    oracleByte c s ws a ∈ heldValues c s ws a := by
  have hi : c.tear s.draws a % (heldValues c s ws a).length < (heldValues c s ws a).length :=
    Nat.mod_lt _ (Nat.succ_pos _)
  simp only [oracleByte, List.getD_eq_getElem _ _ hi]
  exact List.getElem_mem hi

/-- A byte that nobody writes reads as main memory holds it (R79). -/
theorem oracleByte_of_not_written {c : Config} {s : State} {ws : List (Addr × Byte)} {a : Nat}
    (h : ∀ w ∈ ws, w.1.toNat ≠ a) : oracleByte c s ws a = memByte c s a := by
  rcases mem_heldValues.1 (oracleByte_mem_heldValues c s ws a) with hold | ⟨w, hw, ha, -⟩
  · exact hold
  · exact absurd ha (h w hw)

/-- Without concurrent writes the oracle answers main memory's contents (R79). -/
@[simp] theorem oracleByte_nil (c : Config) (s : State) : oracleByte c s [] = memByte c s :=
  funext fun _ => oracleByte_of_not_written (by simp)

/-- A draw that names a position of the values held makes the oracle answer the value there (R79). -/
theorem oracleByte_of_tear {c : Config} {s : State} {ws : List (Addr × Byte)} {a i : Nat}
    (ht : c.tear s.draws a = i) (hi : i < (heldValues c s ws a).length) :
    oracleByte c s ws a = (heldValues c s ws a)[i] := by
  simp only [oracleByte, ht, Nat.mod_eq_of_lt hi, List.getD_eq_getElem _ _ hi]

/-! ### The source slots -/

/-- The row of a pixel's byte address (R200). -/
theorem stdOffset_div {width x : Nat} (y : Nat) (hx : x < width) :
    stdOffset width x y / (width * 4) = y := by
  rw [stdOffset, Nat.mul_div_mul_right _ _ (by decide), Nat.mul_comm, Nat.mul_add_div (by omega),
    Nat.div_eq_of_lt hx, Nat.add_zero]

/-- The column of a pixel's byte address (R200). -/
theorem stdOffset_mod {width x : Nat} (y : Nat) (hx : x < width) :
    stdOffset width x y % (width * 4) / 4 = x := by
  rw [stdOffset, Nat.mul_mod_mul_right, Nat.mul_div_cancel _ (by decide), Nat.mul_comm,
    Nat.mul_add_mod, Nat.mod_eq_of_lt hx]

/-- The index within a 32 × 32 block is below 1024 (R202). -/
theorem tileIndex_lt (row col : Nat) : interleave row col ^^^ ((row &&& 8) <<< 2) < 1024 := by
  have hsum : interleave row col < 2 ^ 10 := by
    have h3 : col &&& 3 ≤ 3 := Nat.and_le_right
    have h1 : row &&& 1 ≤ 1 := Nat.and_le_right
    have h28 : col &&& 28 ≤ 28 := Nat.and_le_right
    have h30 : row &&& 30 ≤ 30 := Nat.and_le_right
    simp only [interleave, Nat.shiftLeft_eq]
    omega
  have hflip : (row &&& 8) <<< 2 < 2 ^ 10 := by
    have h8 : row &&& 8 ≤ 8 := Nat.and_le_right
    simp only [Nat.shiftLeft_eq]
    omega
  exact Nat.xor_lt_two_pow hsum hflip

/-- A pixel of the padded frame has its slot in it (R205). -/
theorem tileSlot_lt {width bands x y : Nat} (hw : width % 32 = 0) (hx : x < width) (hy : y < 32 * bands) :
    tileSlot width y x < width * (32 * bands) := by
  have hidx := tileIndex_lt y x
  have hcol : clearLow5 x + 32 ≤ width := by simp only [clearLow5]; omega
  have hrow : clearLow5 y + 32 ≤ 32 * bands := by simp only [clearLow5]; omega
  calc tileSlot width y x
      = clearLow5 y * width + clearLow5 x * 32 + (interleave y x ^^^ ((y &&& 8) <<< 2)) := rfl
    _ < clearLow5 y * width + (clearLow5 x + 32) * 32 := by omega
    _ ≤ clearLow5 y * width + width * 32 := by omega
    _ = width * (clearLow5 y + 32) := by ring
    _ ≤ width * (32 * bands) := Nat.mul_le_mul_left _ hrow

/-- The four source bytes of a display pixel lie in the framebuffer window (R11 (h), R205). -/
theorem tileOffset_add_lt_fbSize {c : Config} (hc : c.WellFormed) {x y k : Nat} (hx : x < c.width)
    (hy : y < c.height) (hk : k < 4) :
    tileOffset c.width (stdOffset c.width x y) + k < c.fbWindow.size.toNat := by
  have hpad : y < 32 * ((c.height + 31) / 32) := by omega
  have hslot := tileSlot_lt hc.width_tiles hx hpad
  have hsize := hc.fb_size
  rw [Config.paddedHeight] at hsize
  simp only [tileOffset, stdOffset_div y hx, stdOffset_mod y hx]
  omega

/-! ### Rendering -/

/-- Rendering depends on the source bytes of the display pixels only (R224). -/
theorem renderFrame_congr {c : Config} {rd rd' : Nat → Byte} (buf : List Byte)
    (h : ∀ x < c.width, ∀ y < c.height, ∀ k < 4, rd (pixelSource c x y + k) = rd' (pixelSource c x y + k)) :
    renderFrame c rd buf = renderFrame c rd' buf := by
  refine List.foldl_ext _ _ _ fun b xy hxy => ?_
  obtain ⟨hx, hy⟩ := mem_pixels.1 hxy
  have hsrc := h xy.1 hx xy.2 hy
  have h0 := hsrc 0 (by decide)
  rw [Nat.add_zero] at h0
  simp only [pixelStep, h0, hsrc 1 (by decide), hsrc 2 (by decide), hsrc 3 (by decide)]

/-- What PixelStep stores for a display pixel: its four source bytes, repacked (R224, R227, R228). -/
def shownPixel (c : Config) (rd : Nat → Byte) (xy : Nat × Nat) : Pixel :=
  let src := pixelSource c xy.1 xy.2
  c.repack ⟨rd src, rd (src + 1), rd (src + 2), rd (src + 3)⟩

/-- A pixel step puts the shown pixel into its slot (R224). -/
theorem pixelStep_eq (c : Config) (rd : Nat → Byte) (buf : List Byte) (xy : Nat × Nat) :
    pixelStep c rd buf xy = putPixel buf (pixelDest c xy.1 xy.2) (shownPixel c rd xy) :=
  rfl

/-- Display pixels with one slot are one pixel (R224, R225). -/
theorem pixelDest_inj {c : Config} {x y x' y' : Nat} (hx : x < c.width) (hy : y < c.height)
    (hx' : x' < c.width) (hy' : y' < c.height) (h : pixelDest c x y = pixelDest c x' y') :
    (x, y) = (x', y') := by
  have hcol := stdOffset_mod (flipRow c y) hx
  have hrow := stdOffset_div (flipRow c y) hx
  rw [← pixelDest, h, pixelDest] at hcol hrow
  rw [stdOffset_mod _ hx'] at hcol
  rw [stdOffset_div _ hx'] at hrow
  rw [← flipRow_flipRow hy, ← hrow, flipRow_flipRow hy', hcol]

/-- A display pixel's slot lies in the buffer (R224, R225). -/
theorem pixelDest_add_lt {c : Config} {x y k : Nat} (hx : x < c.width) (hy : y < c.height) (hk : k < 4) :
    pixelDest c x y + k < c.width * c.height * 4 := by
  have hend : (flipRow c y + 1) * c.width ≤ c.height * c.width :=
    Nat.mul_le_mul_right _ (flipRow_lt hy)
  rw [Nat.add_mul, Nat.one_mul] at hend
  rw [pixelDest, stdOffset, Nat.mul_comm c.width c.height]
  omega

/-- After the steps of a list of display pixels, byte k of the slot of (x, y) holds byte k of the pixel
shown there, if it did before or if (x, y) is one of them: no other pixel touches the slot (R224). -/
theorem foldl_pixelStep_slot {c : Config} (rd : Nat → Byte) {x y k : Nat} (hx : x < c.width)
    (hy : y < c.height) (hk : k < 4) (l : List (Nat × Nat)) (hl : ∀ p ∈ l, p ∈ pixels c)
    {buf : List Byte} (hlen : buf.length = c.width * c.height * 4)
    (h : (x, y) ∈ l ∨ buf[pixelDest c x y + k]? = (Pixel.toList (shownPixel c rd (x, y)))[k]?) :
    (l.foldl (pixelStep c rd) buf)[pixelDest c x y + k]? =
      (Pixel.toList (shownPixel c rd (x, y)))[k]? := by
  induction l generalizing buf with
  | nil => simpa using h
  | cons p l ih =>
    refine ih (fun q hq => hl q (List.mem_cons_of_mem _ hq)) (by simpa [pixelStep_eq] using hlen) ?_
    rw [pixelStep_eq]
    by_cases hp : p = (x, y)
    · subst hp
      exact .inr (getElem?_putPixel_slot _ hk (hlen ▸ pixelDest_add_lt hx hy hk))
    · obtain ⟨hpx, hpy⟩ := mem_pixels.1 (hl p (by simp))
      have hslot : (pixelDest c x y + k) / 4 * 4 ≠ pixelDest c p.1 p.2 := by
        have halign := pixelDest_mod_four c x y
        have hne : pixelDest c p.1 p.2 ≠ pixelDest c x y := fun he => hp (pixelDest_inj hpx hpy hx hy he)
        omega
      rw [getElem?_putPixel_other _ hslot (pixelDest_mod_four c _ _)]
      exact h.imp_left fun hm => (List.mem_cons.1 hm).resolve_left (Ne.symm hp)

/-- A rendered frame shows every display pixel in its slot (R223, R224). -/
theorem take_drop_renderFrame {c : Config} (rd : Nat → Byte) {buf : List Byte}
    (hlen : buf.length = c.width * c.height * 4) {x y : Nat} (hx : x < c.width) (hy : y < c.height) :
    ((renderFrame c rd buf).drop (pixelDest c x y)).take 4 = Pixel.toList (shownPixel c rd (x, y)) := by
  refine List.ext_getElem? fun k => ?_
  rw [List.getElem?_take]
  split
  case isTrue hk =>
    rw [List.getElem?_drop]
    exact foldl_pixelStep_slot rd hx hy hk _ (fun _ => id) hlen (.inl (mem_pixels.2 ⟨hx, hy⟩))
  case isFalse hk =>
    exact (List.getElem?_eq_none (Nat.le_of_not_lt hk)).symm

/-! ### The loop's turn -/

/-- Where the loop has an enabled step, its turn answers next, be it the next input or the loop's own
(R237, R240). -/
theorem stepIn_of_loopIsNext (c : Config) {s : State} {ws : List (Addr × Byte)} {rest : List Input}
    (hen : loopEnabled s.mode = true) (h : loopIsNext s ws rest) :
    stepIn c s = .next (loopTurn c ws { s with inputs := rest }) := by
  rcases h with hin | ⟨hin, rfl, rfl⟩
  · simp only [stepIn, stepBy, hin, happens]
  · have hself : ({ s with inputs := [] } : State) = s := by rw [← hin]
    rw [hself]
    simp only [stepIn, stepBy, hin, idle, hen, if_true]

/-- A turn in mode Starting (R221). -/
theorem loopTurn_of_starting (c : Config) (ws : List (Addr × Byte)) {s : State}
    (h : s.mode = .starting) : loopTurn c ws s = writeMainMemory c (acquireStep c s) ws := by
  simp only [loopTurn, h]

/-- A turn in mode Running (R223). -/
theorem loopTurn_of_running (c : Config) (ws : List (Addr × Byte)) {s : State} (h : s.mode = .running) :
    loopTurn c ws s = frameStep c ws s := by
  simp only [loopTurn, h]

/-- A frame step renders, presents and polls; nothing else changes but main memory (R223). -/
theorem frameStep_eq_poll (c : Config) (ws : List (Addr × Byte)) (s : State) :
    frameStep c ws s = poll { s with
      buf := renderFrame c (oracleByte c s ws) s.buf
      presented := s.presented ++ [renderFrame c (oracleByte c s ws) s.buf]
      mem := (writeMainMemory c s ws).mem
      draws := s.draws + 1 } :=
  rfl

/-! ### The obligations -/

/-- Settles O9, by `execIn_mrd_cases` and `execIn_crd`. -/
theorem readsOnlyReturn : Obligations.ReadsOnlyReturn := by
  intro n a s
  obtain ⟨v, d, hnext, hdraw, -⟩ := execIn_mrd_cases Config.block.cfg n a s
  rw [exec_eq_execIn, exec_eq_execIn]
  exact ⟨⟨v, d, hnext, hdraw⟩, _, execIn_crd _ n a s⟩

/-- Settles O30: the write leaves routing alone, and the generic copy returns its lanes. -/
theorem registerReadBack : Obligations.RegisterReadBack := by
  intro b s a v n hw hf ho hr
  have hf' : firstClaimant b.cfg (dcRegWrite b.cfg s a v n) a = some b.cfg.dc :=
    (firstClaimant_congr (dcRegWrite_cs b.cfg s a v n) a).trans hf
  refine ⟨_, execIn_mwr_of_dc hw hf n v, ?_⟩
  rw [execIn_mrd_of_dc hw hf', dcRegRead_dcRegWrite b.wf ho hr]

/-- Settles O31: every write stores lanes 0 to n − 1 only. -/
theorem unusedWriteLanesAffectNothing : Obligations.UnusedWriteLanesAffectNothing := by
  intro c s n a v w h
  exact ⟨congrArg Host.Outcome.next (memWrite_congr h c s a),
    congrArg Host.Outcome.next (cfgWrite_congr h c s a)⟩

/-- Settles O32, by `execIn_mrd_cases` and `fitsSize_cfgRead`. -/
theorem readResultsFitTheirSize : Obligations.ReadResultsFitTheirSize := by
  intro c s n a
  obtain ⟨v, d, hnext, -, hfit⟩ := execIn_mrd_cases c n a s
  exact ⟨⟨v, d, hnext, hfit⟩, _, execIn_crd c n a s, fitsSize_cfgRead c s a n⟩

/-- Settles O33: a read without a draw leaves alone what it depends on. -/
theorem readsAreRepeatable : Obligations.ReadsAreRepeatable := by
  refine fun c s t n a => ⟨fun h hdraw => ?_, fun h => ?_⟩
  · injection h with h
    subst h
    obtain ⟨d, hd⟩ := memRead_snd c s a n
    refine ⟨(memRead c s a n).1, by rw [respond_rdata, hd], ?_⟩
    have hagain := memRead_congr hdraw (t := respond (memRead c s a n)) (by simp [hd]) (by simp [hd])
    simp only [execIn, execMrdIn, hagain]
    rfl
  · injection h with h
    subst h
    exact ⟨_, rfl, rfl⟩

/-- Settles O39: a frame step is `frameStep_eq_poll`, and its frame shows every pixel by
`take_drop_renderFrame`. -/
theorem frameShowsEveryPixel : Obligations.FrameShowsEveryPixel := by
  intro c s ws rest hm hnext hlen
  have hrun : ({ s with inputs := rest } : State).mode = .running := hm
  refine ⟨_, renderFrame c (oracleByte c s ws) s.buf, (writeMainMemory c s ws).mem,
    stepIn_of_loopIsNext c (by rw [hm]; rfl) hnext, ?_⟩
  rw [loopTurn_of_running c ws hrun]
  obtain ⟨v, f, hf⟩ := frameStep_cases c ws { s with inputs := rest }
  refine ⟨by rw [hf]; rfl, by rw [hf]; rfl, frameStep_eq_poll c ws { s with inputs := rest },
    fun hr => memByte_writeMainMemory hr ws, by rw [length_renderFrame, hlen], fun x y hx hy => ?_⟩
  exact take_drop_renderFrame (oracleByte c s ws) hlen hx hy

/-- Settles O40: without writes the oracle is main memory, which stays. -/
theorem quietFrameShowsMainMemory : Obligations.QuietFrameShowsMainMemory := by
  intro c s rest hm hnext
  have hrun : ({ s with inputs := rest } : State).mode = .running := hm
  refine ⟨_, stepIn_of_loopIsNext c (by rw [hm]; rfl) hnext, ?_⟩
  obtain ⟨v, f, hf⟩ := frameStep_cases c [] { s with inputs := rest }
  rw [loopTurn_of_running c [] hrun, hf, oracleByte_nil]
  exact ⟨rfl, rfl⟩

/-- Settles O43: every source byte of a display pixel lies in the window. -/
theorem frameReadsOnlyTheWindow : Obligations.FrameReadsOnlyTheWindow := by
  intro b rd rd' buf h
  refine renderFrame_congr buf fun x hx y hy k hk => ?_
  rw [pixelSource, Nat.add_assoc]
  exact h _ (tileOffset_add_lt_fbSize b.wf hx hy hk)

/-- Settles O44: the answer is one of the values held. -/
theorem oracleAnswersOldOrNew : Obligations.OracleAnswersOldOrNew :=
  fun c s ws a => ⟨mem_heldValues.1 (oracleByte_mem_heldValues c s ws a), oracleByte_of_not_written⟩

/-- Settles O45: each chosen value stands at some position of the values held, and the draw names it. -/
theorem everyTearingIsPossible : Obligations.EveryTearingIsPossible := by
  intro c s ws pick h
  have hpos : ∀ a, ∃ i, ∃ hi : i < (heldValues c s ws a).length, (heldValues c s ws a)[i] = pick a :=
    fun a => List.mem_iff_getElem.1 (mem_heldValues.2 (h a))
  choose position hlt hpick using hpos
  exact ⟨fun _ a => position a, fun a => (oracleByte_of_tear rfl (hlt a)).trans (hpick a)⟩

/-- Settles O37: the turn is `acquireStep`, beside the other agents' writes. -/
theorem acquireStepObeysTheBoundary : Obligations.AcquireStepObeysTheBoundary := by
  intro c s ws rest hm hnext
  have hstart : ({ s with inputs := rest } : State).mode = .starting := hm
  refine ⟨(writeMainMemory c s ws).mem, ?_, fun hws => by rw [hws]; rfl,
    fun hr => memByte_writeMainMemory hr ws⟩
  rw [stepIn_of_loopIsNext c (by rw [hm]; rfl) hnext, loopTurn_of_starting c ws hstart]
  simp only [acquireStep]
  split <;> rfl

end Sys2Proof.Machine
end

section
/-! Encoding: which byte spells which command, decode against encode, the table word, refused transactions. -/

namespace Sys2Proof

/-! ### The fields of a command byte -/

/-- Every size code is the code of the size it gives (R93). -/
theorem code_sizeOfCode (sz : BitVec 2) : (sizeOfCode sz).code = sz := by
  revert sz
  decide

theorem encodeBus_class (cls : BitVec 2) (w : BitVec 1) (n : Size) :
    (encodeBus cls w n).extractLsb' 6 2 = cls := by
  rw [encodeBus, BitVec.extractLsb'_append_eq_of_le (by decide),
    BitVec.extractLsb'_append_eq_of_le (by decide)]
  exact BitVec.extractLsb'_append_eq_left

theorem encodeBus_res0 (cls : BitVec 2) (w : BitVec 1) (n : Size) :
    (encodeBus cls w n).extractLsb' 3 3 = 0 := by
  rw [encodeBus, BitVec.extractLsb'_append_eq_of_le (by decide),
    BitVec.extractLsb'_append_eq_of_le (by decide)]
  exact BitVec.extractLsb'_append_eq_right

theorem encodeBus_w (cls : BitVec 2) (w : BitVec 1) (n : Size) :
    (encodeBus cls w n).extractLsb' 2 1 = w := by
  rw [encodeBus, BitVec.extractLsb'_append_eq_of_le (by decide)]
  exact BitVec.extractLsb'_append_eq_right

/-- A byte is its upper six bits and its size field. -/
theorem upper_append_size (cmd : Byte) : cmd.extractLsb' 2 6 ++ cmd.extractLsb' 0 2 = cmd :=
  BitVec.extractLsb'_append_extractLsb'

/-- The bytes of format BUS and CLASS `cls` are those whose RES0 is 0 (R91). -/
theorem exists_encodeBus_iff {cls : BitVec 2} {cmd : Byte} :
    (∃ w n, encodeBus cls w n = cmd) ↔ cmd.extractLsb' 6 2 = cls ∧ cmd.extractLsb' 3 3 = 0 := by
  constructor
  · rintro ⟨w, n, rfl⟩
    exact ⟨encodeBus_class cls w n, encodeBus_res0 cls w n⟩
  · rintro ⟨hcls, hres⟩
    have hclassRes : cls ++ 0#3 = cmd.extractLsb' 3 5 := by
      rw [← hcls, ← show _ = 0#3 from hres]
      exact BitVec.extractLsb'_append_extractLsb'_eq_extractLsb' rfl
    have hupper : cls ++ 0#3 ++ cmd.extractLsb' 2 1 = cmd.extractLsb' 2 6 := by
      rw [hclassRes]
      exact BitVec.extractLsb'_append_extractLsb'_eq_extractLsb' rfl
    refine ⟨cmd.extractLsb' 2 1, sizeOfCode (cmd.extractLsb' 0 2), ?_⟩
    rw [encodeBus, code_sizeOfCode, hupper, upper_append_size]

/-- What passes the mask 0xFC of a row of format BUS is the row's byte up to its size field (R96). -/
theorem eq_encodeBus_of_masked {cls : BitVec 2} {w : BitVec 1} {cmd : Byte}
    (h : cmd &&& 0xFC = encodeBus cls w .one) : encodeBus cls w (sizeOfCode (cmd.extractLsb' 0 2)) = cmd := by
  have hupper : cmd.extractLsb' 2 6 = cls ++ 0#3 ++ w :=
    calc cmd.extractLsb' 2 6
      _ = (cmd &&& 0xFC).extractLsb' 2 6 := (BitVec.extractLsb'_and.trans BitVec.and_allOnes).symm
      _ = (encodeBus cls w .one).extractLsb' 2 6 := by rw [h]
      _ = cls ++ 0#3 ++ w := BitVec.extractLsb'_append_eq_left
  rw [encodeBus, code_sizeOfCode, ← hupper, upper_append_size]

/-- The bytes of format SIG are those whose RES0 is 0 and whose SIG is not the reserved 11 (R92). -/
theorem exists_encodeSig_iff {cmd : Byte} :
    (∃ sig, encodeSig sig = cmd) ↔ cmd.extractLsb' 6 2 = 2 ∧ cmd.extractLsb' 2 4 = 0 ∧ cmd ≠ 0x83 := by
  constructor
  · rintro ⟨sig, rfl⟩
    cases sig <;> decide
  · rintro ⟨hcls, hres, h83⟩
    have hupper : 2#2 ++ 0#4 = cmd.extractLsb' 2 6 := by
      rw [← show _ = 2#2 from hcls, ← show _ = 0#4 from hres]
      exact BitVec.extractLsb'_append_extractLsb'_eq_extractLsb' rfl
    have hcmd : cmd = 2#2 ++ 0#4 ++ cmd.extractLsb' 0 2 := by rw [hupper, upper_append_size]
    have hsig : ∀ code : BitVec 2, 2#2 ++ 0#4 ++ code = (0x83 : Byte) ∨
        2#2 ++ 0#4 ++ code = encodeSig .vsync ∨ 2#2 ++ 0#4 ++ code = encodeSig .fullscreen ∨
        2#2 ++ 0#4 ++ code = encodeSig .quit := by decide
    rcases hsig (cmd.extractLsb' 0 2) with h | h | h | h
    · exact absurd (hcmd.trans h) h83
    · exact ⟨.vsync, (hcmd.trans h).symm⟩
    · exact ⟨.fullscreen, (hcmd.trans h).symm⟩
    · exact ⟨.quit, (hcmd.trans h).symm⟩

/-! ### The byte of a command -/

/-- The byte that spells a command (R91, R92, R96). -/
def Command.byte : Command → Byte
  | .mrd n => encodeBus 0 0 n
  | .mwr n => encodeBus 0 1 n
  | .crd n => encodeBus 1 0 n
  | .cwr n => encodeBus 1 1 n
  | .signal sig => encodeSig sig

/-- The decoder reads the byte of a command as the command (R99). -/
@[simp] theorem decodeCmd_byte (k : Command) : decodeCmd k.byte = some k := by
  cases k with
  | mrd n => cases n <;> decide
  | mwr n => cases n <;> decide
  | crd n => cases n <;> decide
  | cwr n => cases n <;> decide
  | signal sig => cases sig <;> decide

/-- The decoder reads a command from its byte only: one row of the opcode map each (R96, R99). -/
theorem byte_of_decodeCmd {cmd : Byte} {k : Command} (h : decodeCmd cmd = some k) : k.byte = cmd := by
  have hmask : cmd &&& 0xFF = cmd := BitVec.and_allOnes
  unfold decodeCmd at h
  rw [hmask] at h
  split_ifs at h with hmrd hmwr hcrd hcwr hvsync hfull hquit <;> cases h
  · exact eq_encodeBus_of_masked hmrd
  · exact eq_encodeBus_of_masked hmwr
  · exact eq_encodeBus_of_masked hcrd
  · exact eq_encodeBus_of_masked hcwr
  · exact hvsync.symm
  · exact hfull.symm
  · exact hquit.symm

theorem decodeCmd_eq_some_iff {cmd : Byte} {k : Command} : decodeCmd cmd = some k ↔ k.byte = cmd :=
  ⟨byte_of_decodeCmd, fun h => h ▸ decodeCmd_byte k⟩

/-- The commands' bytes are those of format BUS in CLASS 00 and 01 and those of format SIG (R96). -/
theorem exists_byte_iff {cmd : Byte} :
    (∃ k : Command, k.byte = cmd) ↔
      (∃ w n, encodeBus 0 w n = cmd) ∨ (∃ w n, encodeBus 1 w n = cmd) ∨ ∃ sig, encodeSig sig = cmd := by
  constructor
  · rintro ⟨k, rfl⟩
    cases k with
    | mrd n => exact .inl ⟨0, n, rfl⟩
    | mwr n => exact .inl ⟨1, n, rfl⟩
    | crd n => exact .inr (.inl ⟨0, n, rfl⟩)
    | cwr n => exact .inr (.inl ⟨1, n, rfl⟩)
    | signal sig => exact .inr (.inr ⟨sig, rfl⟩)
  · have hbit : ∀ w : BitVec 1, w = 0 ∨ w = 1 := by decide
    rintro (⟨w, n, rfl⟩ | ⟨w, n, rfl⟩ | ⟨sig, rfl⟩)
    · rcases hbit w with rfl | rfl
      exacts [⟨.mrd n, rfl⟩, ⟨.mwr n, rfl⟩]
    · rcases hbit w with rfl | rfl
      exacts [⟨.crd n, rfl⟩, ⟨.cwr n, rfl⟩]
    · exact ⟨.signal sig, rfl⟩

/-- Reserved are the bytes of no command. -/
theorem decodeCmd_eq_none_iff {cmd : Byte} : decodeCmd cmd = none ↔ ¬ ∃ k : Command, k.byte = cmd := by
  simp only [Option.eq_none_iff_forall_ne_some, ne_eq, decodeCmd_eq_some_iff, not_exists]

/-- The reserved bytes by their fields (R97). -/
theorem decodeCmd_eq_none_iff_fields {cmd : Byte} :
    decodeCmd cmd = none ↔
      cmd.extractLsb' 6 2 = 3 ∨
      ((cmd.extractLsb' 6 2 = 0 ∨ cmd.extractLsb' 6 2 = 1) ∧ cmd.extractLsb' 3 3 ≠ 0) ∨
      (cmd.extractLsb' 6 2 = 2 ∧ cmd.extractLsb' 2 4 ≠ 0) ∨ cmd = 0x83 := by
  rw [decodeCmd_eq_none_iff, exists_byte_iff, exists_encodeBus_iff, exists_encodeBus_iff,
    exists_encodeSig_iff]
  have hclass : ∀ cls : BitVec 2, cls = 0 ∨ cls = 1 ∨ cls = 2 ∨ cls = 3 := by decide
  by_cases h83 : cmd = 0x83
  · subst h83
    decide
  · rcases hclass (cmd.extractLsb' 6 2) with h | h | h | h <;> simp only [h, h83, ne_eq] <;> simp

/-! ### Decoding a transaction -/

/-- The bus port gives a read its address; the `wdata` is ignored (R91, R95). -/
theorem decode_mrd (n : Size) (a : Addr) (v : Data) :
    decode (.bus (encodeBus 0 0 n) a v) = .ok (.mrd n a) := by
  simp only [decode, show decodeCmd (encodeBus 0 0 n) = _ from decodeCmd_byte (.mrd n)]

theorem decode_mwr (n : Size) (a : Addr) (v : Data) :
    decode (.bus (encodeBus 0 1 n) a v) = .ok (.mwr n a v) := by
  simp only [decode, show decodeCmd (encodeBus 0 1 n) = _ from decodeCmd_byte (.mwr n)]

theorem decode_crd (n : Size) (a : Addr) (v : Data) :
    decode (.bus (encodeBus 1 0 n) a v) = .ok (.crd n a) := by
  simp only [decode, show decodeCmd (encodeBus 1 0 n) = _ from decodeCmd_byte (.crd n)]

theorem decode_cwr (n : Size) (a : Addr) (v : Data) :
    decode (.bus (encodeBus 1 1 n) a v) = .ok (.cwr n a v) := by
  simp only [decode, show decodeCmd (encodeBus 1 1 n) = _ from decodeCmd_byte (.cwr n)]

theorem decode_signal (sig : Signal) :
    decode (.signal (encodeSig sig)) = .ok (instrOfSignal sig) := by
  simp only [decode, show decodeCmd (encodeSig sig) = _ from decodeCmd_byte (.signal sig)]

/-- Decoding undoes encoding. -/
theorem decode_encode (i : Instr) : decode (encode i) = .ok i := by
  cases i with
  | mrd n a => exact decode_mrd n a 0
  | mwr n a v => exact decode_mwr n a v
  | crd n a => exact decode_crd n a 0
  | cwr n a v => exact decode_cwr n a v
  | sigVsync => exact decode_signal .vsync
  | sigFullscreen => exact decode_signal .fullscreen
  | sigQuit => exact decode_signal .quit

theorem encode_instrOfSignal (sig : Signal) : encode (instrOfSignal sig) = .signal (encodeSig sig) := by
  cases sig <;> rfl

/-- On the bus port, what decodes is the encoding of its instruction, a read's `wdata` sent as 0. -/
theorem encode_of_decode_bus {cmd : Byte} {a : Addr} {v : Data} {i : Instr}
    (h : decode (.bus cmd a v) = .ok i) :
    encode i = .bus cmd a (if cmd.extractLsb' 2 1 = 1 then v else 0) := by
  cases hk : decodeCmd cmd with
  | none => simp [decode, hk] at h
  | some k =>
    obtain rfl := byte_of_decodeCmd hk
    cases k with
    | mrd n =>
      obtain rfl := Except.ok.inj ((decode_mrd n a v).symm.trans h)
      rw [Command.byte, encodeBus_w]
      rfl
    | mwr n =>
      obtain rfl := Except.ok.inj ((decode_mwr n a v).symm.trans h)
      rw [Command.byte, encodeBus_w]
      rfl
    | crd n =>
      obtain rfl := Except.ok.inj ((decode_crd n a v).symm.trans h)
      rw [Command.byte, encodeBus_w]
      rfl
    | cwr n =>
      obtain rfl := Except.ok.inj ((decode_cwr n a v).symm.trans h)
      rw [Command.byte, encodeBus_w]
      rfl
    | signal sig => simp [decode] at h

/-- On the signal port, what decodes is the encoding of its instruction. -/
theorem encode_of_decode_signal {cmd : Byte} {i : Instr} (h : decode (.signal cmd) = .ok i) :
    encode i = .signal cmd := by
  cases hk : decodeCmd cmd with
  | none => simp [decode, hk] at h
  | some k =>
    obtain rfl := byte_of_decodeCmd hk
    cases k with
    | signal sig =>
      obtain rfl := Except.ok.inj ((decode_signal sig).symm.trans h)
      exact encode_instrOfSignal sig
    | mrd n => simp [decode] at h
    | mwr n => simp [decode] at h
    | crd n => simp [decode] at h
    | cwr n => simp [decode] at h

/-! ### The table word -/

/-- The 136 bits of a bus transaction, read back (R91, log entry 18). -/
theorem tableTransaction_transactionBits_bus {cmd : Byte} (h : cmd.extractLsb' 6 2 ≠ 2) (a : Addr)
    (v : Data) :
    tableTransaction 136 (transactionBits (.bus cmd a v)) = .bus cmd a v := by
  have hc := cmd.isLt
  have ha := a.isLt
  have hv := v.isLt
  generalize hw : transactionBits (.bus cmd a v) = w
  simp only [transactionBits] at hw
  have hbits : w % 2 ^ 136 = w := Nat.mod_eq_of_lt (by omega)
  have hcmd : BitVec.ofNat 8 w = cmd := BitVec.eq_of_toNat_eq (by rw [BitVec.toNat_ofNat]; omega)
  have haddr : BitVec.ofNat 64 (w / 2 ^ 8) = a :=
    BitVec.eq_of_toNat_eq (by rw [BitVec.toNat_ofNat]; omega)
  have hdata : BitVec.ofNat 64 (w / 2 ^ 72) = v :=
    BitVec.eq_of_toNat_eq (by rw [BitVec.toNat_ofNat]; omega)
  simp only [tableTransaction, hbits, hcmd, haddr, hdata, if_neg h]

/-- The 136 bits of a signal transaction, read back (R92, log entry 18). -/
theorem tableTransaction_transactionBits_signal {cmd : Byte} (h : cmd.extractLsb' 6 2 = 2) :
    tableTransaction 136 (transactionBits (.signal cmd)) = .signal cmd := by
  have hbits : transactionBits (.signal cmd) % 2 ^ 136 = cmd.toNat :=
    Nat.mod_eq_of_lt (cmd.isLt.trans (by decide))
  simp only [tableTransaction, hbits, BitVec.ofNat_toNat, BitVec.setWidth_eq, if_pos h]

/-- Every instruction's command byte has the CLASS of its port (R91, R92). -/
theorem portClass (i : Instr) : Laws.PortClass.Statement i := by
  cases i with
  | mrd n a => exact Laws.PortClass.mrd n a
  | mwr n a v => exact Laws.PortClass.mwr n a v
  | crd n a => exact Laws.PortClass.crd n a
  | cwr n a v => exact Laws.PortClass.cwr n a v
  | sigVsync => exact Laws.PortClass.sigVsync
  | sigFullscreen => exact Laws.PortClass.sigFullscreen
  | sigQuit => exact Laws.PortClass.sigQuit

/-- The 136 bits of an instruction's transaction are that transaction's table word. -/
theorem tableTransaction_transactionBits_encode (i : Instr) :
    tableTransaction 136 (transactionBits (encode i)) = encode i := by
  have hport := portClass i
  unfold Laws.PortClass.Statement at hport
  split at hport
  next cmd a v he =>
    have hclass : cmd.extractLsb' 6 2 ≠ 2 := by
      rcases hport with h | h <;> rw [h] <;> decide
    rw [he, tableTransaction_transactionBits_bus hclass]
  next cmd he => rw [he, tableTransaction_transactionBits_signal hport]

end Sys2Proof

namespace Sys2Proof.Machine

/-! ### A step at a transaction -/

/-- A next input that is a transaction is performed, after it has left the schedule (R122, R256). -/
theorem step_of_command {s : State} {t : Transaction} {rest : List Input}
    (h : s.inputs = .command t :: rest) : step s = transact exec t { s with inputs := rest } := by
  simp only [step, stepBy, h, happens]

/-- A transaction that does not decode is refused by its reason (R97). -/
theorem step_of_decode_error {s : State} {t : Transaction} {rest : List Input} {r : Reject}
    (h : s.inputs = .command t :: rest) (hd : decode t = .error r) : step s = .refused (refusalOf r) := by
  rw [step_of_command h]
  simp only [transact, hd]

/-! ### The obligations -/

/-- Settles O5, by `decode_encode` and, on each port, its converse. -/
theorem decodeAndEncodeAgree : Obligations.DecodeAndEncodeAgree := by
  refine ⟨decode_encode, fun t i h => ?_⟩
  cases t with
  | bus cmd a v => exact encode_of_decode_bus h
  | signal cmd => exact encode_of_decode_signal h

/-- Settles O6: the table word gives the transaction back, which decodes to the instruction. -/
theorem tableWordRoundTrip : Obligations.TableWordRoundTrip := by
  intro i
  rw [decodeTableWord, tableTransaction_transactionBits_encode, decode_encode]
  rfl

/-- Settles O2, by `step_of_command`. -/
theorem stepRunsTheDecodedCommand : Obligations.StepRunsTheDecodedCommand := by
  intro s t rest i hin hd
  rw [step_of_command hin]
  simp only [transact, hd]

/-- Settles O3: each byte is the one format BUS or SIG spells, which decodes on every operand. -/
theorem workedEncodings : Obligations.WorkedEncodings := fun a v =>
  ⟨rfl, decode_mrd .one a v, rfl, decode_mrd .two a v, rfl, decode_mrd .four a v,
    rfl, decode_mrd .eight a v, rfl, decode_mwr .four a v, rfl, decode_mwr .eight a v,
    rfl, decode_crd .two a v, rfl, decode_crd .four a v, rfl, decode_cwr .one a v,
    rfl, decode_cwr .four a v, rfl, decode_signal .vsync, rfl, decode_signal .fullscreen,
    rfl, decode_signal .quit, by decide, by decide, by decide⟩

/-- Settles O4: the reserved bytes are those of no command, and what does not decode is refused. -/
theorem reservedAndWrongPortRefused : Obligations.ReservedAndWrongPortRefused := by
  refine ⟨fun _ => decodeCmd_eq_none_iff_fields, ?_, ?_, ?_, ?_⟩
  · intro s rest cmd a v hin hcmd
    exact step_of_decode_error (r := .reserved cmd) hin (by simp only [decode, hcmd])
  · intro s rest cmd hin hcmd
    exact step_of_decode_error (r := .reserved cmd) hin (by simp only [decode, hcmd])
  · intro s rest cmd a v sig hin hcmd
    exact step_of_decode_error (r := .wrongPort cmd) hin (by simp only [decode, hcmd])
  · intro s rest cmd k hin hcmd hk
    have hd : decode (.signal cmd) = .error (.wrongPort cmd) := by
      cases k with
      | signal sig => exact absurd rfl (hk sig)
      | mrd n => simp only [decode, hcmd]
      | mwr n => simp only [decode, hcmd]
      | crd n => simp only [decode, hcmd]
      | cwr n => simp only [decode, hcmd]
    exact step_of_decode_error hin hd

end Sys2Proof.Machine
end


section
/-! Root bus: who answers an address, what each target does with the access, what the two writes change. -/

namespace Sys2Proof.Machine

/-! ### Who answers an address -/

/-- The first function whose BARs claim the address answers it (R110, R120 (3), R143). -/
theorem firstClaimant_eq_some {c : Config} {s : State} {a : Addr} {pre post : List FnId} {f : FnId}
    (hc : c.functions = pre ++ f :: post) (hpre : ∀ g ∈ pre, isAddressMapped c s g a = false)
    (hf : isAddressMapped c s f a = true) : firstClaimant c s a = some f :=
  List.find?_eq_some_iff_append.2 ⟨hf, pre, post, hc, fun g hg => by simp [hpre g hg]⟩

/-- No function answers an address that none claims (R110). -/
theorem firstClaimant_eq_none {c : Config} {s : State} {a : Addr}
    (h : ∀ f ∈ c.functions, isAddressMapped c s f a = false) : firstClaimant c s a = none :=
  List.find?_eq_none.2 fun f hf => by simp [h f hf]

/-- The flat range that contains an address is the only one, so it is the one found (R11 (a), R116). -/
theorem flatAt_eq_some (b : Block) {a : Addr} {r : FlatReg} (hr : r ∈ b.cfg.flat)
    (ha : inRange r.range a = true) : flatAt b.cfg a = some r := by
  cases hfind : flatAt b.cfg a with
  | none => exact absurd ha (List.find?_eq_none.1 hfind r hr)
  | some q =>
    have hq : inRange q.range a = true :=
      List.find?_some (p := fun r : FlatReg => inRange r.range a) hfind
    obtain ⟨i, hi, rfl⟩ := List.getElem_of_mem (List.mem_of_find?_eq_some hfind)
    obtain ⟨j, hj, rfl⟩ := List.getElem_of_mem hr
    obtain rfl : i = j := (flatTargetsAreUnique b a).1 i j hi hj hq ha
    rfl

/-- No flat device answers an address outside all flat ranges (R116). -/
theorem flatAt_eq_none {c : Config} {a : Addr} (h : ∀ r ∈ c.flat, inRange r.range a = false) :
    flatAt c a = none :=
  List.find?_eq_none.2 fun r hr => by simp [h r hr]

/-! ### What each target does with the access

The display controller's two commands are `execIn_mrd_of_dc` and `execIn_mwr_of_dc`. -/

section
variable {c : Config} {s : State} {a : Addr}

/-- Inside the window a memory read is a configuration read (R110 step 1, R111). -/
theorem memRead_of_window (h : inRange c.cfgWindow a = true) (n : Size) :
    memRead c s a n = (cfgRead c s a n, s) := by
  rw [memRead_eq, if_pos h]

/-- Inside the window a memory write is a configuration write (R110 step 1, R112). -/
theorem memWrite_of_window (h : inRange c.cfgWindow a = true) (v : Data) (n : Size) :
    memWrite c s a v n = cfgWrite c s a v n := by
  rw [memWrite_eq, if_pos h]

/-- An opaque function answers a read with a draw (R163). -/
theorem memRead_of_opaque_function {f : FnId} (hw : inRange c.cfgWindow a = false)
    (hf : firstClaimant c s a = some f) (hdc : f ≠ c.dc) (n : Size) :
    memRead c s a n = opaqueRead c s (.function f) a n := by
  simp [memRead_eq, hw, hf, hdc]

/-- A flat device answers a read with a draw (R116). -/
theorem memRead_of_flat {r : FlatReg} (hw : inRange c.cfgWindow a = false)
    (hf : firstClaimant c s a = none) (hr : flatAt c a = some r) (n : Size) :
    memRead c s a n = opaqueRead c s (.flat r.dev) a n := by
  simp [memRead_eq, hw, hf, hr]

/-- An unmapped read is zero and takes no draw (R117). -/
theorem memRead_of_unmapped (hw : inRange c.cfgWindow a = false) (hf : firstClaimant c s a = none)
    (hr : flatAt c a = none) (n : Size) : memRead c s a n = (0, s) := by
  simp [memRead_eq, hw, hf, hr]

/-- Outside the window a write that the display controller does not answer changes nothing (R112, R117,
R164). -/
theorem memWrite_of_not_dc (hw : inRange c.cfgWindow a = false) (hf : firstClaimant c s a ≠ some c.dc)
    (v : Data) (n : Size) : memWrite c s a v n = s := by
  rw [memWrite_eq, if_neg (by simp [hw])]
  split
  case h_1 f hf' =>
    rw [if_neg]
    rintro rfl
    exact hf hf'
  case h_2 => rfl

/-- An MRD that is a draw of an opaque device returns it, zero above the size (R111, log entry 7). -/
theorem execIn_mrd_of_opaqueRead {n : Size} {d : Device} (h : memRead c s a n = opaqueRead c s d a n) :
    execIn c (.mrd n a) s = .next { s with
      rdata := s.rdata ++ [dataOfLanes n (lane (c.opaqueRead s.draws d a n))], draws := s.draws + 1 } := by
  simp only [execIn, execMrdIn, h, opaqueRead, respond]

/-- An MRD that takes no draw returns its value, and does nothing else (R111). -/
theorem execIn_mrd_of_value {n : Size} {v : Data} (h : memRead c s a n = (v, s)) :
    execIn c (.mrd n a) s = .next { s with rdata := s.rdata ++ [v] } := by
  simp only [execIn, execMrdIn, h, respond]

/-- An MWR ends in the state after its write (R112). -/
theorem execIn_mwr (c : Config) (n : Size) (a : Addr) (v : Data) (s : State) :
    execIn c (.mwr n a v) s = .next (memWrite c s a v n) :=
  rfl

/-- Outside the window an MWR that the display controller does not answer changes nothing (R112). -/
theorem execIn_mwr_of_not_dc (hw : inRange c.cfgWindow a = false) (hf : firstClaimant c s a ≠ some c.dc)
    (n : Size) (v : Data) : execIn c (.mwr n a v) s = .next s := by
  rw [execIn_mwr, memWrite_of_not_dc hw hf]

/-- A CWR ends in the state after its write (R114). -/
theorem execIn_cwr (c : Config) (n : Size) (a : Addr) (v : Data) (s : State) :
    execIn c (.cwr n a v) s = .next (cfgWrite c s a v n) :=
  rfl

/-- An unrouted configuration read is zero (R115). -/
theorem cfgRead_of_unrouted (h : c.cfgRoute a = none) (n : Size) : cfgRead c s a n = 0 := by
  simp only [cfgRead, h]

/-- An unrouted configuration write is dropped (R115). -/
theorem cfgWrite_of_unrouted (h : c.cfgRoute a = none) (v : Data) (n : Size) :
    cfgWrite c s a v n = s := by
  simp only [cfgWrite, h]

/-- A routed configuration write is the function's (R114, R145). -/
theorem cfgWrite_of_route {f : FnId} (h : c.cfgRoute a = some f) (v : Data) (n : Size) :
    cfgWrite c s a v n = fnConfigWrite c s f (cfgOffset a) v n := by
  simp only [cfgWrite, h, bridgeCfgWrite]

end

/-! ### The frames of the two writes -/

/-- Byte k of a configuration access at `a` stands at offset `(a + k) mod 256` (R144, R166). -/
theorem cfgByteOffset_cfgOffset (a : Addr) (k : Nat) :
    cfgByteOffset (cfgOffset a) k = BitVec.ofNat 8 (a.toNat + k) := by
  apply BitVec.eq_of_toNat_eq
  simp [cfgByteOffset, cfgOffset]

/-- A configuration write changes only bytes `(a + k) mod 256`, k < n, of the function that the address
routes to (R114, R115, R167). -/
theorem csByte_cfgWrite_other {c : Config} {s : State} (h : Memory.rising 0 s.cs = true) {n : Size}
    {a : Addr} (v : Data) {f : FnId} {o : BitVec 8}
    (ho : ∀ k < bytes n, ¬ (c.cfgRoute a = some f ∧ o = BitVec.ofNat 8 (a.toNat + k))) :
    csByte c (cfgWrite c s a v n) f o = csByte c s f o := by
  cases hg : c.cfgRoute a with
  | none => rw [cfgWrite_of_unrouted hg]
  | some g =>
    have hother : f ≠ g ∨ ∀ k < bytes n, o ≠ cfgByteOffset (cfgOffset a) k := by
      rw [or_iff_not_imp_left, not_not]
      rintro rfl k hk rfl
      exact ho k hk ⟨hg, cfgByteOffset_cfgOffset a k⟩
    rw [cfgWrite_of_route hg, csByte_fnConfigWrite_other h g _ v n hother]

/-- A memory write is a configuration write inside the window, a register write that the display
controller answers outside it, or nothing (R110, R112). -/
theorem memWrite_cases (c : Config) (s : State) (a : Addr) (v : Data) (n : Size) :
    (inRange c.cfgWindow a = true ∧ memWrite c s a v n = cfgWrite c s a v n) ∨
    (inRange c.cfgWindow a = false ∧ firstClaimant c s a = some c.dc ∧
      memWrite c s a v n = dcRegWrite c s a v n) ∨
    memWrite c s a v n = s := by
  cases hw : inRange c.cfgWindow a with
  | true => exact .inl ⟨rfl, memWrite_of_window hw v n⟩
  | false =>
    by_cases hf : firstClaimant c s a = some c.dc
    · exact .inr (.inl ⟨rfl, hf, by simp [memWrite_eq, hw, hf]⟩)
    · exact .inr (.inr (memWrite_of_not_dc hw hf v n))

/-- A memory write changes `CS` and `RF` at most (R112). -/
theorem memWrite_frame (c : Config) (s : State) (a : Addr) (v : Data) (n : Size) :
    ∃ m r, memWrite c s a v n = { s with cs := m, rf := r } := by
  rcases memWrite_cases c s a v n with ⟨-, h⟩ | ⟨-, -, h⟩ | h
  · obtain ⟨m, hm⟩ := cfgWrite_cases c s a v n
    exact ⟨m, s.rf, h.trans hm⟩
  · exact ⟨s.cs, _, h⟩
  · exact ⟨s.cs, s.rf, h⟩

/-- Of the configuration spaces a memory write changes only what a configuration write does, and only
inside the window (R112, R167). -/
theorem csByte_memWrite_other {c : Config} {s : State} (h : Memory.rising 0 s.cs = true) {n : Size}
    {a : Addr} (v : Data) {f : FnId} {o : BitVec 8}
    (ho : ∀ k < bytes n, ¬ (inRange c.cfgWindow a = true ∧ c.cfgRoute a = some f ∧
      o = BitVec.ofNat 8 (a.toNat + k))) :
    csByte c (memWrite c s a v n) f o = csByte c s f o := by
  rcases memWrite_cases c s a v n with ⟨hw, ht⟩ | ⟨-, -, ht⟩ | ht
  · rw [ht, csByte_cfgWrite_other h v fun k hk hk' => ho k hk ⟨hw, hk'⟩]
  · rw [ht, csByte_dcRegWrite]
  · rw [ht]

/-- Of the register file a memory write changes only the bytes of its register access, and only where the
display controller answers outside the window (R112, R171). -/
theorem rfByte_memWrite_other {c : Config} {s : State} (h : Memory.rising 0 s.rf = true) {n : Size}
    {a : Addr} (v : Data) {j : Nat}
    (hj : ∀ k < bytes n, ¬ (inRange c.cfgWindow a = false ∧ firstClaimant c s a = some c.dc ∧
      j = dcRegKey c a k)) :
    rfByte c (memWrite c s a v n) j = rfByte c s j := by
  rcases memWrite_cases c s a v n with ⟨-, ht⟩ | ⟨hw, hf, ht⟩ | ht
  · obtain ⟨m, hm⟩ := cfgWrite_cases c s a v n
    rw [ht, hm]
    rfl
  · rw [ht, rfByte_dcRegWrite_other h a v n fun k hk hk' => hj k hk ⟨hw, hf, hk'⟩]
  · rw [ht]

/-! ### The obligations -/

/-- Settles O10, by `memWrite_frame` and one lemma for each of the two memories. -/
theorem memoryWriteFrame : Obligations.MemoryWriteFrame := by
  intro n a v s hcs hrf
  refine ⟨_, (exec_eq_execIn _ s).trans (execIn_mwr _ n a v s), ?_,
    fun f o ho => csByte_memWrite_other hcs v ho, fun j hj => rfByte_memWrite_other hrf v hj⟩
  obtain ⟨m, r, h⟩ := memWrite_frame Config.block.cfg s a v n
  rw [h]

/-- Settles O11, by `cfgWrite_cases` and `csByte_cfgWrite_other`. -/
theorem configurationWriteFrame : Obligations.ConfigurationWriteFrame := by
  intro n a v s hcs
  refine ⟨_, (exec_eq_execIn _ s).trans (execIn_cwr _ n a v s), ?_,
    fun f o ho => csByte_cfgWrite_other hcs v ho⟩
  obtain ⟨m, h⟩ := cfgWrite_cases Config.block.cfg s a v n
  rw [h]

/-- Settles O18: `f` is the first claimant, and it is the display controller or an opaque function. -/
theorem firstClaimantGetsTheAccess : Obligations.FirstClaimantGetsTheAccess := by
  intro c s n a v pre post f hw hc hpre hf
  have hfirst : firstClaimant c s a = some f := firstClaimant_eq_some hc hpre hf
  refine ⟨?_, fun hdc => ?_⟩
  · rintro rfl
    exact ⟨execIn_mrd_of_dc hw hfirst n, execIn_mwr_of_dc hw hfirst n v⟩
  · have hne : firstClaimant c s a ≠ some c.dc := by simpa [hfirst] using hdc
    exact ⟨execIn_mrd_of_opaqueRead (memRead_of_opaque_function hw hfirst hdc n),
      execIn_mwr_of_not_dc hw hne n v⟩

/-- Settles O19: the range excludes the window and every other range, so its device is the target. -/
theorem flatRangesComeAfterBars : Obligations.FlatRangesComeAfterBars := by
  intro b s n a v r hr hlo hhi hfns
  have ha : inRange r.range a = true := inRange_iff.2 ⟨hlo, hhi⟩
  have hw : inRange b.cfg.cfgWindow a = false := (flatTargetsAreUnique b a).2 r hr ha
  have hnone : firstClaimant b.cfg s a = none := firstClaimant_eq_none hfns
  exact ⟨execIn_mrd_of_opaqueRead (memRead_of_flat hw hnone (flatAt_eq_some b hr ha) n),
    execIn_mwr_of_not_dc hw (by simp [hnone]) n v⟩

/-- Settles O20: neither a function nor a flat device is the target. -/
theorem unmappedReadsZeroAndDropsWrites : Obligations.UnmappedReadsZeroAndDropsWrites := by
  intro c s n a v hw hfns hflat
  have hnone : firstClaimant c s a = none := firstClaimant_eq_none hfns
  exact ⟨execIn_mrd_of_value (memRead_of_unmapped hw hnone (flatAt_eq_none hflat) n),
    execIn_mwr_of_not_dc hw (by simp [hnone]) n v⟩

/-- Settles O7: each arm of `exec` is its command's meaning on the block. -/
theorem everyCommandCompletes : Obligations.EveryCommandCompletes :=
  fun _ _ _ _ => ⟨rfl, rfl, rfl, rfl, rfl, rfl, rfl⟩

/-- Settles O17, by `memRead_of_window` and `memWrite_of_window`. -/
theorem windowAccessIsConfigurationAccess : Obligations.WindowAccessIsConfigurationAccess := by
  intro c s n a v hw
  rw [execIn_mrd_of_value (memRead_of_window hw n), execIn_crd, execIn_mwr, memWrite_of_window hw,
    execIn_cwr]
  exact ⟨rfl, rfl⟩

/-- Settles O21, by `cfgRead_of_unrouted` and `cfgWrite_of_unrouted`. -/
theorem unroutedConfigurationAccess : Obligations.UnroutedConfigurationAccess := by
  intro c s n a v h
  rw [execIn_crd, execIn_cwr, cfgRead_of_unrouted h, cfgWrite_of_unrouted h]
  exact ⟨rfl, rfl⟩

end Sys2Proof.Machine
end


section
/-! Display controller: the register index as masked-address arithmetic, and the device-level statements
about configuration space and register file. -/

namespace Sys2Proof.Machine

/-! ### The register index -/

/-- The register file is a whole number of 4-byte registers (R11 (e)). -/
theorem four_dvd_rfSize {c : Config} (hc : c.WellFormed) : 4 ∣ c.rfSize := by
  have hne : c.rfSize ≠ 0 := by have := hc.rf_size; omega
  have hlog : 2 ≤ c.rfSize.log2 := (Nat.le_log2 hne).2 hc.rf_size
  exact hc.rf_power ▸ Nat.pow_dvd_pow 2 hlog

/-- The mask of a power-of-two size takes the remainder (R11 (e), R169). -/
theorem dcRegIndex_eq_mod {c : Config} (hc : c.WellFormed) (a : Addr) :
    dcRegIndex c a = a.toNat % c.rfSize / 4 := by
  have hmask : a.toNat &&& (c.rfSize - 1) = a.toNat % c.rfSize := by
    rw [← hc.rf_power, Nat.and_two_pow_sub_one_eq_mod]
  rw [dcRegIndex, hmask]

/-- The index depends on the address without bits 1..0 and without the bits above the mask (R169). -/
theorem dcRegIndex_eq_word_mod {c : Config} (hc : c.WellFormed) (a : Addr) :
    dcRegIndex c a = a.toNat / 4 % (c.rfSize / 4) := by
  rw [dcRegIndex_eq_mod hc, ← Nat.mod_mul_right_div_self, Nat.mul_div_cancel' (four_dvd_rfSize hc)]

/-- The index names a register of the file (R11 (e), R169). -/
theorem dcRegIndex_lt {c : Config} (hc : c.WellFormed) (a : Addr) :
    dcRegIndex c a < c.rfSize / 4 := by
  have hsize := hc.rf_size
  rw [dcRegIndex_eq_word_mod hc]
  exact Nat.mod_lt _ (by omega)

/-! ### The status register -/

/-- Register 0xA07 reads its sentinel, whatever the register file holds (R172, R173). -/
theorem dcRegRead_status {c : Config} (hc : c.WellFormed) {a : Addr} (h : dcRegIndex c a = 0xA07)
    (s : State) (n : Size) : dcRegRead c s a n = 0x02000000 := by
  have ho : overrideAt c (dcRegIndex c a) = some 0x02000000 :=
    (overrideAt_eq_some_iff hc).2 (h ▸ hc.override_status)
  rw [dcRegRead_of_override ho]
  rfl

/-! ### The obligations -/

/-- Settles O22: a CRD returns `fnConfigRead`, whose lanes `lane_fnConfigRead` gives. -/
theorem configurationReadReturnsTheBytes : Obligations.ConfigurationReadReturnsTheBytes := by
  refine ⟨fun c s n a f hf => ⟨_, execIn_crd_of_route hf n s, fun k hk => ?_, fun k hk => ?_⟩,
    by decide, by decide⟩
  · rw [lane_fnConfigRead, if_pos hk, cfgByteOffset_cfgOffset]
  · rw [lane_fnConfigRead, if_neg (by omega)]

/-- Settles O23: a CWR ends in `fnConfigWrite`, which changes `CS` only and there the lanes' bytes only. -/
theorem configurationWriteStoresTheLanes : Obligations.ConfigurationWriteStoresTheLanes := by
  refine ⟨fun c s n a v f hf hr => ⟨_, execIn_cwr_of_route hf n v s, rfl, fun k hk => ?_,
    fun g o ho => ?_⟩, by decide⟩
  · rw [← cfgByteOffset_cfgOffset, csByte_fnConfigWrite_lane hr f _ v n hk]
  · simp only [← cfgByteOffset_cfgOffset] at ho
    exact csByte_fnConfigWrite_other hr f _ v n (not_or_of_imp ho)

/-- Settles O26, by the two forms of the index. -/
theorem registerIndexMasksTheAddress : Obligations.RegisterIndexMasksTheAddress := by
  intro b a
  refine ⟨dcRegIndex_eq_mod b.wf a, dcRegIndex_lt b.wf a, rfl, fun x hx => ?_⟩
  rw [dcRegIndex_eq_word_mod b.wf, dcRegIndex_eq_word_mod b.wf, hx]

/-- Settles O28: the file of a well-formed block holds more than eight bytes, so the lanes do not meet. -/
theorem registerWriteStoresTheLanes : Obligations.RegisterWriteStoresTheLanes := by
  refine ⟨fun b s a v n hr => ?_, by decide⟩
  have hsize : 8 ≤ b.cfg.rfSize := Nat.le_trans (by decide) b.wf.rf_large
  exact ⟨rfl, fun k hk => rfByte_dcRegWrite_lane hsize hr a v n hk,
    fun j hj => rfByte_dcRegWrite_other hr a v n hj⟩

/-- Settles O29: the write leaves routing alone, and the read takes the sentinel. -/
theorem statusRegisterReadsItsSentinel : Obligations.StatusRegisterReadsItsSentinel := by
  intro b s a v m n hw hf hi
  have hf' : firstClaimant b.cfg (dcRegWrite b.cfg s a v m) a = some b.cfg.dc :=
    (firstClaimant_congr (dcRegWrite_cs b.cfg s a v m) a).trans hf
  refine ⟨_, execIn_mwr_of_dc hw hf m v, ?_, fun hscale => ?_⟩
  · rw [execIn_mrd_of_dc hw hf', dcRegRead_status b.wf hi]
  · rw [dcRegOffset, hi, hscale]

/-- Settles O16, by `isAddressMapped_iff` and evaluation of the examples. -/
theorem barTestIsInclusive : Obligations.BarTestIsInclusive :=
  ⟨fun _ _ _ _ => isAddressMapped_iff, by decide, by decide, by decide⟩

end Sys2Proof.Machine
end


section
/-! Tile transform: the index within a 32 × 32 block bit by bit, the slot as block base plus index, and
the pixel round trip, from which the bijection follows. -/

namespace Sys2Proof.Machine

/-! ### Masks and disjoint sums -/

/-- A shifted mask takes the same bits as the mask does of the number shifted down. -/
theorem and_shiftLeft_mask (n m k : Nat) : n &&& m <<< k = ((n >>> k) &&& m) <<< k := by
  refine Nat.eq_of_testBit_eq fun j => ?_
  rw [Nat.testBit_and, Nat.testBit_shiftLeft, Nat.testBit_shiftLeft, Nat.testBit_and, Nat.testBit_shiftRight]
  by_cases hj : k ≤ j <;> simp [hj]

/-- A sum whose second term starts above the first one's bits is their OR. -/
theorem add_shiftLeft_eq_or {a i : Nat} (h : a < 2 ^ i) (b : Nat) : a + b <<< i = a ||| b <<< i := by
  rw [Nat.add_comm, Nat.shiftLeft_add_eq_or_of_lt h, Nat.or_comm]

/-- A mask of `m` bits from place `k` on takes the number's bits there as a field. -/
theorem and_field (n m k : Nat) : n &&& (2 ^ m - 1) <<< k = ((n >>> k) % 2 ^ m) <<< k := by
  rw [and_shiftLeft_mask, Nat.and_two_pow_sub_one_eq_mod]

theorem and_one_field (n : Nat) : n &&& 1 = n % 2 ^ 1 := Nat.and_two_pow_sub_one_eq_mod n 1

theorem and_three_field (n : Nat) : n &&& 3 = n % 2 ^ 2 := Nat.and_two_pow_sub_one_eq_mod n 2

theorem and_seven_field (n : Nat) : n &&& 7 = n % 2 ^ 3 := Nat.and_two_pow_sub_one_eq_mod n 3

theorem and_fifteen_field (n : Nat) : n &&& 15 = n % 2 ^ 4 := Nat.and_two_pow_sub_one_eq_mod n 4

/-! ### The index within a block -/

/-- The index of (row, col) within its block (R202). -/
def tileIndex (row col : Nat) : Nat := interleave row col ^^^ ((row &&& 8) <<< 2)

theorem xor_flip_eq (row col : Nat) :
    interleave row col ^^^ ((row &&& 8) <<< 2) = tileIndex row col := rfl

/-- The interleave's column bits 4..2 stand at places 5..3 (R201). -/
theorem colTerm_eq (col : Nat) : (col &&& 28) <<< 1 = ((col >>> 2) % 2 ^ 3) <<< 3 := by
  rw [show col &&& 28 = _ from and_field col 3 2, ← Nat.shiftLeft_add]

/-- The interleave's row bits 4..1 stand at places 9..6 (R201). -/
theorem rowTerm_eq (row : Nat) : (row &&& 30) <<< 5 = ((row >>> 1) % 2 ^ 4) <<< 6 := by
  rw [show row &&& 30 = _ from and_field row 4 1, ← Nat.shiftLeft_add]

/-- The flip's term is row bit 3 at place 5 (R201). -/
theorem flipTerm_eq (row : Nat) : (row &&& 8) <<< 2 = ((row >>> 3) % 2 ^ 1) <<< 5 := by
  rw [show row &&& 8 = _ from and_field row 1 3, ← Nat.shiftLeft_add]

/-- The interleave as a number: each field at its weight. -/
theorem interleave_eq (row col : Nat) :
    interleave row col = col % 4 + 4 * (row % 2) + 8 * (col / 4 % 8) + 64 * (row / 2 % 16) := by
  rw [interleave, and_three_field, and_one_field, colTerm_eq, rowTerm_eq]
  simp only [Nat.shiftLeft_eq, Nat.shiftRight_eq_div_pow]
  omega

/-- The interleave's terms occupy disjoint bits: each starts above the sum of those before it (R202). -/
theorem interleave_eq_or (row col : Nat) : interleave row col =
    (col &&& 3) ||| ((row &&& 1) <<< 2) ||| ((col &&& 28) <<< 1) ||| ((row &&& 30) <<< 5) := by
  rw [interleave, and_three_field, and_one_field, colTerm_eq, rowTerm_eq,
    add_shiftLeft_eq_or (by simp only [Nat.shiftLeft_eq]; omega),
    add_shiftLeft_eq_or (by simp only [Nat.shiftLeft_eq]; omega), add_shiftLeft_eq_or (by omega)]

/-- Which bit of row or column stands at each place of the index (R202). -/
theorem testBit_tileIndex (row col j : Nat) : (tileIndex row col).testBit j =
    ((decide (j < 2) && col.testBit j || decide (2 ≤ j) && (decide (j - 2 < 1) && row.testBit (j - 2)) ||
      decide (3 ≤ j) && (decide (j - 3 < 3) && col.testBit (2 + (j - 3))) ||
      decide (6 ≤ j) && (decide (j - 6 < 4) && row.testBit (1 + (j - 6)))) ^^
    (decide (5 ≤ j) && (decide (j - 5 < 1) && row.testBit (3 + (j - 5))))) := by
  simp only [tileIndex, interleave_eq_or, and_three_field, and_one_field, colTerm_eq, rowTerm_eq,
    flipTerm_eq, Nat.testBit_xor, Nat.testBit_or, Nat.testBit_shiftLeft, Nat.testBit_shiftRight,
    Nat.testBit_mod_two_pow, ge_iff_le]

/-- Bit 8 of the index, which untiling reads, is row bit 3: the flip touches bit 5 only (R202). -/
theorem tileIndex_bit8 (row col : Nat) : (tileIndex row col).testBit 8 = row.testBit 3 := by
  simp [testBit_tileIndex]

/-- The term by which untiling undoes the flip is the flip's term (R206). -/
theorem unflipTerm_eq (row col : Nat) :
    ((tileIndex row col >>> 8) &&& 1) <<< 5 = (row &&& 8) <<< 2 := by
  rw [flipTerm_eq, and_one_field, Nat.shiftRight_eq_div_pow, Nat.shiftRight_eq_div_pow,
    Nat.pow_one, ← Nat.toNat_testBit, ← Nat.toNat_testBit, tileIndex_bit8]

/-- Flipping bit 5 by bit 8 takes the index back to the interleave (R206). -/
theorem unflip_tileIndex (row col : Nat) :
    tileIndex row col ^^^ (tileIndex row col >>> 8 &&& 1) <<< 5 = interleave row col := by
  rw [unflipTerm_eq, tileIndex, Nat.xor_xor_cancel_right]

/-- The column within the block, read back from the interleave (R206). -/
theorem interleave_col (row col : Nat) :
    (interleave row col &&& 3) + (interleave row col >>> 3 &&& 7) <<< 2 = col % 32 := by
  rw [and_three_field, and_seven_field, Nat.shiftRight_eq_div_pow, Nat.shiftLeft_eq, interleave_eq]
  omega

/-- The row within the block, read back from the interleave (R206). -/
theorem interleave_row (row col : Nat) :
    (interleave row col >>> 2 &&& 1) + (interleave row col >>> 6 &&& 15) <<< 1 = row % 32 := by
  rw [and_one_field, and_fifteen_field, Nat.shiftRight_eq_div_pow, Nat.shiftRight_eq_div_pow,
    Nat.shiftLeft_eq, interleave_eq]
  omega

/-- The index depends on the row and the column within the block only (R202). -/
theorem tileIndex_mod (row col : Nat) : tileIndex (row % 32) (col % 32) = tileIndex row col := by
  have hint : interleave (row % 32) (col % 32) = interleave row col := by
    simp only [interleave_eq]
    omega
  have hflip : (row % 32) >>> 3 % 2 ^ 1 = row >>> 3 % 2 ^ 1 := by
    simp only [Nat.shiftRight_eq_div_pow]
    omega
  rw [tileIndex, tileIndex, flipTerm_eq, flipTerm_eq, hint, hflip]

/-! ### The slot -/

theorem clearLow5_eq (x : Nat) : clearLow5 x = 32 * (x / 32) := by
  rw [clearLow5]
  omega

/-- The slot is the block's base plus the index (R203). -/
theorem tileSlot_eq (width row col : Nat) : tileSlot width row col =
    32 * (row / 32) * width + 1024 * (col / 32) + tileIndex row col := by
  rw [tileSlot, xor_flip_eq, clearLow5_eq, clearLow5_eq, Nat.mul_right_comm 32 (col / 32) 32]

/-- A slot's place within its band of 32 rows lies in the band (R203). -/
theorem bandOffset_lt {width x : Nat} (y : Nat) (hw : width % 32 = 0) (hx : x < width) :
    1024 * (x / 32) + tileIndex y x < 32 * width := by
  have hidx : tileIndex y x < 1024 := tileIndex_lt y x
  omega

/-- The band of a pixel's slot is the pixel's (R206). -/
theorem tileSlot_div {width x : Nat} (y : Nat) (hw : width % 32 = 0) (hx : x < width) :
    tileSlot width y x / (32 * width) = y / 32 := by
  rw [tileSlot_eq, Nat.mul_right_comm, Nat.add_assoc, Nat.mul_add_div (by omega),
    Nat.div_eq_of_lt (bandOffset_lt y hw hx), Nat.add_zero]

/-- A pixel's slot within its band (R206). -/
theorem tileSlot_mod {width x : Nat} (y : Nat) (hw : width % 32 = 0) (hx : x < width) :
    tileSlot width y x % (32 * width) = 1024 * (x / 32) + tileIndex y x := by
  rw [tileSlot_eq, Nat.mul_right_comm, Nat.add_assoc, Nat.mul_add_mod,
    Nat.mod_eq_of_lt (bandOffset_lt y hw hx)]

/-! ### Byte offsets -/

/-- The transform of a byte address depends on its word only (R201). -/
theorem tileOffset_eq_word (width a : Nat) :
    tileOffset width a = tileSlot width (a / 4 / width) (a / 4 % width) * 4 := by
  rw [tileOffset, Nat.mul_comm width 4, ← Nat.div_div_eq_div_mul, Nat.mod_mul_right_div_self]

/-- A pixel's tiled byte offset is that of its slot (R200, R201). -/
theorem tileOffset_stdOffset {width x : Nat} (y : Nat) (hx : x < width) :
    tileOffset width (stdOffset width x y) = tileSlot width y x * 4 := by
  rw [tileOffset, stdOffset_div y hx, stdOffset_mod y hx]

theorem tileOffset_stdOffset_div_four {width x : Nat} (y : Nat) (hx : x < width) :
    tileOffset width (stdOffset width x y) / 4 = tileSlot width y x := by
  rw [tileOffset_stdOffset y hx, Nat.mul_div_cancel _ (by decide)]

/-- Untiling a pixel's slot gives the pixel's byte offset back (R207). -/
theorem untileOffset_tileSlot {width x : Nat} (y : Nat) (hw : width % 32 = 0) (hx : x < width) :
    untileOffset width (tileSlot width y x * 4) = stdOffset width x y := by
  have hidx : tileIndex y x < 1024 := tileIndex_lt y x
  have hblock : (1024 * (x / 32) + tileIndex y x) / 1024 = x / 32 := by omega
  have hindex : (1024 * (x / 32) + tileIndex y x) % 1024 = tileIndex y x := by omega
  simp only [untileOffset, Nat.mul_div_cancel _ (show 0 < 4 by decide), tileSlot_div y hw hx,
    tileSlot_mod y hw hx, hblock, hindex, unflip_tileIndex, Nat.add_assoc, interleave_col,
    interleave_row, Nat.div_add_mod', stdOffset]

/-- Two pixels with the same slot are the same pixel: untiling the slot gives the offset of both (R204). -/
theorem tileSlot_inj {width x y x' y' : Nat} (hw : width % 32 = 0) (hx : x < width) (hx' : x' < width)
    (h : tileSlot width y x = tileSlot width y' x') : x = x' ∧ y = y' := by
  have hstd : stdOffset width x y = stdOffset width x' y' := by
    rw [← untileOffset_tileSlot y hw hx, h, untileOffset_tileSlot y' hw hx']
  constructor
  · rw [← stdOffset_mod y hx, hstd, stdOffset_mod y' hx']
  · rw [← stdOffset_div y hx, hstd, stdOffset_div y' hx']

/-- The pixels of the padded frame, as (x, y) (R204). -/
def paddedPixels (width bands : Nat) : Finset (Nat × Nat) :=
  Finset.range width ×ˢ Finset.range (32 * bands)

theorem mem_paddedPixels {width bands : Nat} {xy : Nat × Nat} :
    xy ∈ paddedPixels width bands ↔ xy.1 < width ∧ xy.2 < 32 * bands := by
  rw [paddedPixels, Finset.mem_product, Finset.mem_range, Finset.mem_range]

theorem card_paddedPixels (width bands : Nat) :
    (paddedPixels width bands).card = width * (32 * bands) := by
  rw [paddedPixels, Finset.card_product, Finset.card_range, Finset.card_range]

/-- Every slot of the padded frame is some pixel's: there are as many pixels as slots, and no two share
one (R204). -/
theorem exists_tileSlot_eq {width bands p : Nat} (hw : width % 32 = 0) (hp : p < width * (32 * bands)) :
    ∃ x y, x < width ∧ y < 32 * bands ∧ tileSlot width y x = p := by
  have hmaps : ∀ xy ∈ paddedPixels width bands,
      tileSlot width xy.2 xy.1 ∈ Finset.range (width * (32 * bands)) := by
    intro xy hxy
    obtain ⟨hx, hy⟩ := mem_paddedPixels.1 hxy
    exact Finset.mem_range.2 (tileSlot_lt hw hx hy)
  have hinj : Set.InjOn (fun xy : Nat × Nat => tileSlot width xy.2 xy.1) (paddedPixels width bands) := by
    intro xy hxy xy' hxy' h
    have hx := (mem_paddedPixels.1 hxy).1
    have hx' := (mem_paddedPixels.1 hxy').1
    obtain ⟨hxx, hyy⟩ := tileSlot_inj hw hx hx' h
    exact Prod.ext hxx hyy
  have hcard : (Finset.range (width * (32 * bands))).card ≤ (paddedPixels width bands).card := by
    rw [Finset.card_range, card_paddedPixels]
  obtain ⟨⟨x, y⟩, hxy, h⟩ :=
    Finset.surjOn_of_injOn_of_card_le _ hmaps hinj hcard (Finset.mem_range.2 hp)
  obtain ⟨hx, hy⟩ := mem_paddedPixels.1 hxy
  exact ⟨x, y, hx, hy, h⟩

/-! ### The obligations -/

/-- Settles O58, by `untileOffset_tileSlot`. -/
theorem untileUndoesTile : Obligations.UntileUndoesTile := by
  intro width x y hw hx
  rw [tileOffset_stdOffset y hx, untileOffset_tileSlot y hw hx]

/-- Settles O53: the bits are those of the disjoint terms and the flip, and undoing the flip gives the
interleave, from which row and column within the block are read back. -/
theorem tileIndexPermutesTenBits : Obligations.TileIndexPermutesTenBits := by
  refine ⟨interleave_eq_or, fun row col => ⟨tileIndex_lt row col, ?_⟩, fun row col row' col' h => ?_⟩
  · simp only [xor_flip_eq]
    simp [testBit_tileIndex, -Nat.testBit_zero]
  · have hint : interleave row col = interleave row' col' := by
      rw [xor_flip_eq, xor_flip_eq] at h
      rw [← unflip_tileIndex, h, unflip_tileIndex]
    constructor
    · rw [← interleave_row row col, hint, interleave_row]
    · rw [← interleave_col row col, hint, interleave_col]

/-- Settles O54, by `tileSlot_eq` and `tileIndex_mod`. -/
theorem tileSlotIsBlockBasePlusIndex : Obligations.TileSlotIsBlockBasePlusIndex := by
  intro width row col
  refine ⟨?_, tileIndex_lt _ _⟩
  rw [tileSlot_eq, xor_flip_eq, tileIndex_mod]

/-- Settles O55, by `tileOffset_eq_word`: rounding down keeps the address's word. -/
theorem tileOffsetFloorsTheAddress : Obligations.TileOffsetFloorsTheAddress := by
  intro width a
  constructor
  · rw [tileOffset_eq_word, tileOffset_eq_word, Nat.mul_div_cancel _ (show 0 < 4 by decide)]
  · rw [tileOffset, Nat.mul_mod_left]

/-- Settles O56, by `tileSlot_lt` and the last slot of 1280 × 720. -/
theorem tileOffsetStaysInThePaddedFrame : Obligations.TileOffsetStaysInThePaddedFrame := by
  refine ⟨fun width height x y hw hx hy => ?_, ⟨1263, 719, by decide⟩, by decide, by decide⟩
  have hslot := tileSlot_lt hw hx (show y < 32 * ((height + 31) / 32) by omega)
  rw [tileOffset_stdOffset y hx]
  omega

/-- Settles O57, by `tileSlot_inj` and `exists_tileSlot_eq`; the last pixel of 48 × 32 leaves the frame. -/
theorem tileTransformIsABijection : Obligations.TileTransformIsABijection := by
  refine ⟨fun width x y x' y' hw hx hx' h => ?_, fun width bands hw => ⟨fun x y hx hy => ?_,
    fun p hp => ?_⟩, ⟨47, 31, by decide⟩, by decide, fun c hc hwf => hc hwf.width_tiles⟩
  · rw [tileOffset_stdOffset_div_four y hx, tileOffset_stdOffset_div_four y' hx'] at h
    exact tileSlot_inj hw hx hx' h
  · rw [tileOffset_stdOffset_div_four y hx]
    exact tileSlot_lt hw hx hy
  · obtain ⟨x, y, hx, hy, h⟩ := exists_tileSlot_eq hw hp
    exact ⟨x, y, hx, hy, (tileOffset_stdOffset_div_four y hx).trans h⟩

end Sys2Proof.Machine
end


section
/-! Production loop: signals and the poll, what the loop and the commands do not depend on, dormant modes,
the order of the pixels, and what happens along a run: the machine performs it, and fairness moves it on. -/

namespace Sys2Proof.Machine

/-! ### Which modes listen and step -/

/-- The loop has no step exactly in Off, Stopped and Failed (R237). -/
theorem loopEnabled_eq_false_iff {m : Mode} :
    loopEnabled m = false ↔ m = .off ∨ m = .stopped ∨ m = .failed := by
  cases m <;> simp [loopEnabled]

/-- Signals are kept exactly in Starting and Running (R231). -/
theorem listening_iff {m : Mode} : listening m = true ↔ m = .starting ∨ m = .running := by
  cases m <;> simp [listening]

/-- Signals are kept exactly in the modes in which the loop has a step (R231, R237). -/
theorem listening_eq_loopEnabled (m : Mode) : listening m = loopEnabled m := by
  cases m <;> rfl

/-- Post by the two listening modes (R231). -/
theorem post_eq_ite (sig : Signal) (s : State) :
    post sig s = if s.mode = .starting ∨ s.mode = .running then
      { s with pending := s.pending ++ [sig] } else s := by
  simp only [post, listening_iff]

/-! ### The poll -/

/-- One more makes odd of even and even of odd. -/
theorem decide_odd_succ (n : Nat) : decide ((n + 1) % 2 = 1) = !decide (n % 2 = 1) := by
  rw [← decide_not, decide_eq_decide]
  omega

/-- Signals flip each bit by the parity of its toggles and change nothing else (R232). -/
theorem foldl_applySignal_eq (q : List Signal) (s : State) :
    q.foldl applySignal s =
      { s with
        vsync := s.vsync ^^ decide (q.count .vsync % 2 = 1)
        fullscreen := s.fullscreen ^^ decide (q.count .fullscreen % 2 = 1) } := by
  induction q generalizing s with
  | nil => simp
  | cons sig q ih =>
    rw [List.foldl_cons, ih]
    cases sig <;> simp [applySignal, decide_odd_succ]

/-- What a poll does, field by field (R232). -/
theorem poll_eq (s : State) : poll s =
    { s with
      vsync := s.vsync ^^ decide (s.pending.count .vsync % 2 = 1)
      fullscreen := s.fullscreen ^^ decide (s.pending.count .fullscreen % 2 = 1)
      pending := []
      mode := if Signal.quit ∈ s.pending then .stopped else s.mode } := by
  simp only [poll, foldl_applySignal_eq]
  split <;> rfl

/-! ### The loop's turn -/

/-- What a turn is in each mode (R221, R223, R237). -/
theorem loopTurn_eq (c : Config) (ws : List (Addr × Byte)) (s : State) :
    loopTurn c ws s =
      if s.mode = .starting then writeMainMemory c (acquireStep c s) ws
      else if s.mode = .running then frameStep c ws s
      else writeMainMemory c s ws := by
  cases hm : s.mode <;> simp [loopTurn, hm]

/-- A turn of a loop without an enabled step lapses, beside the other agents' writes (R237). -/
theorem loopTurn_of_dormant (c : Config) (ws : List (Addr × Byte)) {s : State}
    (h : loopEnabled s.mode = false) : loopTurn c ws s = writeMainMemory c s ws := by
  rcases loopEnabled_eq_false_iff.1 h with hm | hm | hm <;> simp only [loopTurn, hm]

/-- What acquiring the surface does, field by field (R221). -/
theorem acquireStep_eq (c : Config) (s : State) : acquireStep c s =
    { s with
      draws := s.draws + 1
      mode := if c.surfaceAcquired s.draws then .running else .failed
      opLog := if c.surfaceAcquired s.draws then s.opLog
        else s.opLog ++ [.productionLoopInitializationFailure] } := by
  simp only [acquireStep]
  split <;> rfl

/-- What a frame step does, field by field (R223, R232). -/
theorem frameStep_eq (c : Config) (ws : List (Addr × Byte)) (s : State) : frameStep c ws s =
    { s with
      buf := renderFrame c (oracleByte c s ws) s.buf
      presented := s.presented ++ [renderFrame c (oracleByte c s ws) s.buf]
      mem := (writeMainMemory c s ws).mem
      draws := s.draws + 1
      vsync := s.vsync ^^ decide (s.pending.count .vsync % 2 = 1)
      fullscreen := s.fullscreen ^^ decide (s.pending.count .fullscreen % 2 = 1)
      pending := []
      mode := if Signal.quit ∈ s.pending then .stopped else s.mode } :=
  (frameStep_eq_poll c ws s).trans (poll_eq _)

/-- The mode after a turn in Starting is the boundary's answer (R221). -/
theorem loopTurn_mode_of_starting (c : Config) (ws : List (Addr × Byte)) {s : State}
    (h : s.mode = .starting) :
    (loopTurn c ws s).mode = if c.surfaceAcquired s.draws then .running else .failed := by
  rw [loopTurn_of_starting c ws h, writeMainMemory_mode, acquireStep_eq]

/-- Acquiring the surface leaves the queue alone (R221). -/
theorem loopTurn_pending_of_starting (c : Config) (ws : List (Addr × Byte)) {s : State}
    (h : s.mode = .starting) : (loopTurn c ws s).pending = s.pending := by
  rw [loopTurn_of_starting c ws h, writeMainMemory_pending, acquireStep_eq]

/-- A frame step appends one frame (R226). -/
theorem frameStep_presented (c : Config) (ws : List (Addr × Byte)) (s : State) :
    (frameStep c ws s).presented = s.presented ++ [renderFrame c (oracleByte c s ws) s.buf] := by
  rw [frameStep_eq]

/-- A frame step empties the queue (R232). -/
theorem frameStep_pending (c : Config) (ws : List (Addr × Byte)) (s : State) :
    (frameStep c ws s).pending = [] := by
  rw [frameStep_eq]

/-- A frame step with a quit pending stops the loop (R232, R235). -/
theorem frameStep_mode_of_quit (c : Config) (ws : List (Addr × Byte)) {s : State}
    (h : Signal.quit ∈ s.pending) : (frameStep c ws s).mode = .stopped := by
  rw [frameStep_eq]
  exact if_pos h

/-! ### What a turn of the loop does not depend on -/

/-- A turn of the loop neither reads nor writes the configuration spaces and the register file (R238). -/
theorem loopTurn_registers (c : Config) (ws : List (Addr × Byte)) (cs rf : Memory) (s : State) :
    loopTurn c ws { s with cs := cs, rf := rf } = { loopTurn c ws s with cs := cs, rf := rf } := by
  rw [loopTurn_eq, loopTurn_eq, acquireStep_eq, acquireStep_eq, frameStep_eq, frameStep_eq]
  by_cases hstart : s.mode = .starting
  · simp only [if_pos hstart]
    rfl
  · by_cases hrun : s.mode = .running
    · simp only [if_neg hstart, if_pos hrun]
      rfl
    · simp only [if_neg hstart, if_neg hrun]
      rfl

/-- A turn of the loop uses the toggles for nothing but their own next values (R236). -/
theorem loopTurn_toggles (c : Config) (ws : List (Addr × Byte)) (v f : Bool) (s : State) :
    ∃ v' f', loopTurn c ws { s with vsync := v, fullscreen := f } =
      { loopTurn c ws s with vsync := v', fullscreen := f' } := by
  rw [loopTurn_eq, loopTurn_eq, acquireStep_eq, acquireStep_eq, frameStep_eq, frameStep_eq]
  by_cases hstart : s.mode = .starting
  · simp only [if_pos hstart]
    exact ⟨v, f, rfl⟩
  · by_cases hrun : s.mode = .running
    · simp only [if_neg hstart, if_pos hrun]
      exact ⟨_, _, rfl⟩
    · simp only [if_neg hstart, if_neg hrun]
      exact ⟨v, f, rfl⟩

/-! ### What a command does not depend on -/

/-- Every command completes (R122). -/
theorem execIn_completes (c : Config) (i : Instr) (s : State) : ∃ t, execIn c i s = .next t := by
  cases i <;> exact ⟨_, rfl⟩

/-- A memory read neither reads nor writes the toggles (R236). -/
theorem memRead_toggles (c : Config) (v f : Bool) (s : State) (a : Addr) (n : Size) :
    memRead c { s with vsync := v, fullscreen := f } a n =
      ((memRead c s a n).1, { (memRead c s a n).2 with vsync := v, fullscreen := f }) := by
  have hroute : firstClaimant c { s with vsync := v, fullscreen := f } a = firstClaimant c s a :=
    firstClaimant_congr rfl a
  rw [memRead_eq, memRead_eq, hroute]
  split
  case isTrue => rfl
  case isFalse => split <;> split <;> rfl

/-- A configuration write neither reads nor writes the toggles (R236). -/
theorem cfgWrite_toggles (c : Config) (v f : Bool) (s : State) (a : Addr) (d : Data) (n : Size) :
    cfgWrite c { s with vsync := v, fullscreen := f } a d n =
      { cfgWrite c s a d n with vsync := v, fullscreen := f } := by
  unfold cfgWrite
  split <;> rfl

/-- A memory write neither reads nor writes the toggles (R236). -/
theorem memWrite_toggles (c : Config) (v f : Bool) (s : State) (a : Addr) (d : Data) (n : Size) :
    memWrite c { s with vsync := v, fullscreen := f } a d n =
      { memWrite c s a d n with vsync := v, fullscreen := f } := by
  have hroute : firstClaimant c { s with vsync := v, fullscreen := f } a = firstClaimant c s a :=
    firstClaimant_congr rfl a
  rw [memWrite_eq, memWrite_eq, hroute]
  split
  case isTrue => exact cfgWrite_toggles c v f s a d n
  case isFalse =>
    split
    case h_1 => split <;> rfl
    case h_2 => rfl

/-- A post neither reads nor writes the toggles (R231, R236). -/
theorem post_toggles (sig : Signal) (v f : Bool) (s : State) :
    post sig { s with vsync := v, fullscreen := f } =
      { post sig s with vsync := v, fullscreen := f } := by
  rw [post_eq, post_eq]

/-- A command neither reads nor writes the toggles (R236). -/
theorem execIn_toggles {c : Config} {i : Instr} {s t : State} (v f : Bool)
    (h : execIn c i s = .next t) :
    execIn c i { s with vsync := v, fullscreen := f } = .next { t with vsync := v, fullscreen := f } := by
  rcases execIn_cases h with ⟨n, a, rfl, rfl⟩ | ⟨n, a, d, rfl, rfl⟩ | ⟨n, a, rfl, rfl⟩ |
    ⟨n, a, d, rfl, rfl⟩ | ⟨rfl, rfl⟩ | ⟨rfl, rfl⟩ | ⟨rfl, rfl⟩
  · simp only [execIn, execMrdIn, memRead_toggles]
    rfl
  · exact congrArg Host.Outcome.next (memWrite_toggles c v f s a d n)
  · rfl
  · exact congrArg Host.Outcome.next (cfgWrite_toggles c v f s a d n)
  · exact congrArg Host.Outcome.next (post_toggles .vsync v f s)
  · exact congrArg Host.Outcome.next (post_toggles .fullscreen v f s)
  · exact congrArg Host.Outcome.next (post_toggles .quit v f s)

/-! ### A step -/

/-- A step with an input left is that input's (R256). -/
theorem stepIn_of_inputs (c : Config) {s : State} {e : Input} {rest : List Input}
    (h : s.inputs = e :: rest) : stepIn c s = happens c (execIn c) e { s with inputs := rest } := by
  simp only [stepIn, stepBy, h]

/-- A step without an input is the loop's own, or the end of the run (R240). -/
theorem stepIn_of_no_inputs (c : Config) {s : State} (h : s.inputs = []) :
    stepIn c s = if loopEnabled s.mode then .next (loopTurn c [] s) else .fault .runOver := by
  simp only [stepIn, stepBy, h, idle]

/-- A turn of the loop in mode Running is a frame step (R223). -/
theorem stepIn_of_running (c : Config) {s : State} {ws : List (Addr × Byte)} {rest : List Input}
    (hm : s.mode = .running) (h : loopIsNext s ws rest) :
    stepIn c s = .next (frameStep c ws { s with inputs := rest }) := by
  rw [stepIn_of_loopIsNext c (by rw [hm]; rfl) h]
  exact congrArg Host.Outcome.next (loopTurn_of_running c ws (s := { s with inputs := rest }) hm)

/-! ### Steps from states that differ in the toggles -/

/-- Outcomes that differ in the two toggles at most. -/
inductive SameUpToToggles :
    Host.Outcome State Fault Refusal → Host.Outcome State Fault Refusal → Prop
  | next (t : State) (v f : Bool) :
    SameUpToToggles (.next t) (.next { t with vsync := v, fullscreen := f })
  | fault (r : Fault) : SameUpToToggles (.fault r) (.fault r)
  | refused (r : Refusal) : SameUpToToggles (.refused r) (.refused r)

theorem SameUpToToggles.eq_next {t : State} {o : Host.Outcome State Fault Refusal}
    (h : SameUpToToggles (.next t) o) : ∃ v f, o = .next { t with vsync := v, fullscreen := f } := by
  cases h with
  | next _ v f => exact ⟨v, f, rfl⟩

theorem SameUpToToggles.eq_fault {r : Fault} {o : Host.Outcome State Fault Refusal}
    (h : SameUpToToggles (.fault r) o) : o = .fault r := by
  cases h
  rfl

theorem SameUpToToggles.eq_refused {r : Refusal} {o : Host.Outcome State Fault Refusal}
    (h : SameUpToToggles (.refused r) o) : o = .refused r := by
  cases h
  rfl

/-- Turns of the loop from states that differ in the toggles. -/
theorem sameUpToToggles_loopTurn (c : Config) (ws : List (Addr × Byte)) (v f : Bool) (s : State) :
    SameUpToToggles (.next (loopTurn c ws s))
      (.next (loopTurn c ws { s with vsync := v, fullscreen := f })) := by
  obtain ⟨v', f', h⟩ := loopTurn_toggles c ws v f s
  rw [h]
  exact .next _ v' f'

/-- One input, from states that differ in the toggles. -/
theorem sameUpToToggles_happens (c : Config) (e : Input) (v f : Bool) (s : State) :
    SameUpToToggles (happens c (execIn c) e s)
      (happens c (execIn c) e { s with vsync := v, fullscreen := f }) := by
  cases e with
  | command tr =>
    simp only [happens, transact]
    split
    case h_1 i _ =>
      obtain ⟨t, ht⟩ := execIn_completes c i s
      rw [ht, execIn_toggles v f ht]
      exact .next t v f
    case h_2 r _ => exact .refused (refusalOf r)
  | loop ws => exact sameUpToToggles_loopTurn c ws v f s
  | memory ws => exact .next (writeMainMemory c s ws) v f

/-- Steps from states that differ in the toggles (R236). -/
theorem sameUpToToggles_stepIn (c : Config) (v f : Bool) (s : State) :
    SameUpToToggles (stepIn c s) (stepIn c { s with vsync := v, fullscreen := f }) := by
  cases hin : s.inputs with
  | nil =>
    rw [stepIn_of_no_inputs c hin, stepIn_of_no_inputs c rfl]
    split
    case isTrue => simpa only [hin] using sameUpToToggles_loopTurn c [] v f s
    case isFalse => exact .fault .runOver
  | cons e rest =>
    rw [stepIn_of_inputs c hin, stepIn_of_inputs c rfl]
    exact sameUpToToggles_happens c e v f { s with inputs := rest }

/-! ### Dormant modes and the end of a run -/

/-- A command posts nothing while the loop does not listen (R231). -/
theorem execIn_pending_of_dormant {c : Config} {i : Instr} {s t : State}
    (hm : loopEnabled s.mode = false) (h : execIn c i s = .next t) : t.pending = s.pending := by
  have hpost (sig : Signal) : (post sig s).pending = s.pending := by
    simp [post, listening_eq_loopEnabled, hm]
  by_contra hne
  obtain ⟨-, -, -, -, -, -, -, -, hsig⟩ := commandsLeaveTheLoopAlone c i s t h
  obtain ⟨rfl | rfl | rfl, -⟩ := hsig hne
  all_goals
    injection h with h
    subst h
    exact hne (hpost _)

/-- One input answers next or a refusal, never a fault (R97, R122, R250). -/
theorem happens_ne_fault (c : Config) (e : Input) (s : State) (r : Fault) :
    happens c (execIn c) e s ≠ .fault r := by
  cases e with
  | command tr =>
    simp only [happens, transact]
    split
    case h_1 i _ =>
      obtain ⟨t, ht⟩ := execIn_completes c i s
      simp [ht]
    case h_2 => simp
  | loop ws => simp [happens]
  | memory ws => simp [happens]

/-! ### The order of the pixels -/

/-- A byte outside a pixel's slot is set before or after the pixel is put (R224). -/
theorem set_putPixel {buf : List Byte} {dst i : Nat} (hd : dst % 4 = 0) (h : i / 4 * 4 ≠ dst) (b : Byte)
    (p : Pixel) : (putPixel buf dst p).set i b = putPixel (buf.set i b) dst p := by
  simp only [putPixel]
  rw [List.set_comm _ b (show dst + 3 ≠ i by omega), List.set_comm _ b (show dst + 2 ≠ i by omega),
    List.set_comm _ b (show dst + 1 ≠ i by omega), List.set_comm _ b (show dst ≠ i by omega)]

/-- Pixels in different slots are put in either order, whatever the buffer's length (R224). -/
theorem putPixel_comm {dst dst' : Nat} (hd : dst % 4 = 0) (hd' : dst' % 4 = 0) (hne : dst ≠ dst')
    (buf : List Byte) (p q : Pixel) :
    putPixel (putPixel buf dst p) dst' q = putPixel (putPixel buf dst' q) dst p :=
  calc putPixel (putPixel buf dst p) dst' q
    _ = ((((putPixel buf dst p).set dst' q.b0).set (dst' + 1) q.b1).set (dst' + 2) q.b2).set
          (dst' + 3) q.b3 := rfl
    _ = putPixel (putPixel buf dst' q) dst p := by
      rw [set_putPixel hd (by omega), set_putPixel hd (by omega), set_putPixel hd (by omega),
        set_putPixel hd (by omega)]
      rfl

/-- Display pixels are processed in either order (R223, R229). -/
theorem pixelStep_comm {c : Config} (rd : Nat → Byte) {p q : Nat × Nat} (hp : p ∈ pixels c)
    (hq : q ∈ pixels c) (buf : List Byte) :
    pixelStep c rd (pixelStep c rd buf p) q = pixelStep c rd (pixelStep c rd buf q) p := by
  by_cases hpq : p = q
  · rw [hpq]
  · obtain ⟨hpx, hpy⟩ := mem_pixels.1 hp
    obtain ⟨hqx, hqy⟩ := mem_pixels.1 hq
    have hne : pixelDest c p.1 p.2 ≠ pixelDest c q.1 q.2 :=
      fun h => hpq (pixelDest_inj hpx hpy hqx hqy h)
    exact putPixel_comm (pixelDest_mod_four c _ _) (pixelDest_mod_four c _ _) hne buf _ _

/-! ### Runs -/

/-- The events of moments k to k + n − 1 of a run. -/
def Run.events {c : Config} (r : Run c) (k n : Nat) : List Input :=
  (List.range n).map fun j => r.event (k + j)

/-- The first of the events happens at the first moment. -/
theorem Run.events_succ {c : Config} (r : Run c) (k n : Nat) :
    r.events k (n + 1) = r.event k :: r.events (k + 1) n := by
  simp only [Run.events, List.range_succ_eq_map, List.map_cons, List.map_map, Nat.add_zero]
  congr 2
  funext j
  simp only [Function.comp_apply, Nat.succ_eq_add_one, Nat.add_assoc, Nat.add_comm 1 j]

/-- The machine performs the event of a moment, given as its next input (R256). -/
theorem Run.stepIn_event {c : Config} (r : Run c) (k : Nat) (l : List Input) :
    stepIn c { r.state k with inputs := r.event k :: l } = .next { r.state (k + 1) with inputs := l } := by
  rw [stepIn_of_inputs c rfl]
  exact happens_inputs (s := r.state k) l (r.steps k)

/-- Given the next n events of a run as its inputs, the machine takes n steps along the run (R256). -/
theorem Run.run_events {c : Config} (r : Run c) (k n : Nat) (rest : List Input) :
    Host.Core.run (coreIn c) n ({ r.state k with inputs := r.events k n ++ rest } : State) =
      .next ({ r.state (k + n) with inputs := rest } : State) := by
  induction n generalizing k with
  | zero => rfl
  | succ n ih =>
    have hstep : (coreIn c).step { r.state k with inputs := r.events k (n + 1) ++ rest } =
        .next { r.state (k + 1) with inputs := r.events (k + 1) n ++ rest } := by
      rw [r.events_succ]
      exact r.stepIn_event k _
    simp only [Host.Core.run, hstep, ih]
    rw [Nat.add_right_comm, Nat.add_assoc]

/-- What the loop's mode, its frames and its queue may be after moments without a turn of it. -/
structure WaitedForTurn (s t : State) : Prop where
  mode : t.mode = s.mode
  presented : t.presented = s.presented
  pending : s.pending <+: t.pending

/-- Until the loop's first turn from moment k on, signals only accumulate (R231). -/
theorem Run.waitedForTurn {c : Config} (r : Run c) {k j : Nat} (hkj : k ≤ j)
    (h : ∀ i, k ≤ i → i < j → ¬ loopSteps r i) : WaitedForTurn (r.state k) (r.state j) := by
  induction j, hkj using Nat.le_induction with
  | base => exact ⟨rfl, rfl, List.prefix_rfl⟩
  | succ j hkj ih =>
    have hw := ih fun i hki hij => h i hki (Nat.lt_succ_of_lt hij)
    obtain ⟨hmode, hpres, q, hq⟩ := r.quiet (h j hkj (Nat.lt_succ_self j))
    exact ⟨hmode.trans hw.mode, hpres.trans hw.presented, hw.pending.trans ⟨q, hq.symm⟩⟩

/-- Under weak fairness an enabled loop takes a turn (R256). -/
theorem Run.exists_loopSteps {c : Config} (r : Run c) (hf : weaklyFair r) {k : Nat}
    (hen : loopEnabled (r.state k).mode = true) : ∃ j, k ≤ j ∧ loopSteps r j := by
  by_contra hnone
  have hquiet : ∀ j, k ≤ j → ¬ loopSteps r j := fun j hkj hj => hnone ⟨j, hkj, hj⟩
  refine hnone (hf.2 k fun j hkj => ?_)
  dsimp only
  rw [(r.waitedForTurn hkj fun i hki _ => hquiet i hki).mode]
  exact hen

/-- Under weak fairness an enabled loop's next turn comes, from a state it has only waited in (R256). -/
theorem Run.exists_nextTurn {c : Config} (r : Run c) (hf : weaklyFair r) {k : Nat}
    (hen : loopEnabled (r.state k).mode = true) :
    ∃ j ws s, k ≤ j ∧ r.state j = loopTurn c ws s ∧ WaitedForTurn (r.state k) s := by
  classical
  have hturn := r.exists_loopSteps hf hen
  obtain ⟨hkj, ws, hws⟩ := Nat.find_spec hturn
  have hfirst : ∀ i, k ≤ i → i < Nat.find hturn → ¬ loopSteps r i :=
    fun i hki hi hs => Nat.find_min hturn hi ⟨hki, hs⟩
  exact ⟨_, ws, _, Nat.le_succ_of_le hkj, r.turn hws, r.waitedForTurn hkj hfirst⟩

/-- Under weak fairness a Starting loop gets the boundary's answer, its queue kept (R221). -/
theorem Run.starting_answered {c : Config} (r : Run c) (hf : weaklyFair r) {k : Nat}
    (hm : (r.state k).mode = .starting) :
    ∃ j, k ≤ j ∧ ((r.state j).mode = .running ∨ (r.state j).mode = .failed) ∧
      (r.state k).pending <+: (r.state j).pending := by
  obtain ⟨j, ws, s, hkj, hj, hw⟩ := r.exists_nextTurn hf (by rw [hm]; rfl)
  have hs : s.mode = .starting := hw.mode.trans hm
  refine ⟨j, hkj, ?_, ?_⟩
  · rw [hj, loopTurn_mode_of_starting c ws hs]
    split
    case isTrue => exact .inl rfl
    case isFalse => exact .inr rfl
  · rw [hj, loopTurn_pending_of_starting c ws hs]
    exact hw.pending

/-- Under weak fairness a Running loop presents its next frame (R223). -/
theorem Run.running_presents {c : Config} (r : Run c) (hf : weaklyFair r) {k : Nat}
    (hm : (r.state k).mode = .running) :
    ∃ j frame, k ≤ j ∧ (r.state j).presented = (r.state k).presented ++ [frame] := by
  obtain ⟨j, ws, s, hkj, hj, hw⟩ := r.exists_nextTurn hf (by rw [hm]; rfl)
  refine ⟨j, renderFrame c (oracleByte c s ws) s.buf, hkj, ?_⟩
  rw [hj, loopTurn_of_running c ws (hw.mode.trans hm), frameStep_presented, hw.presented]

/-- Under weak fairness a Running loop with a quit pending stops (R232, R235). -/
theorem Run.running_stops {c : Config} (r : Run c) (hf : weaklyFair r) {k : Nat}
    (hm : (r.state k).mode = .running) (hq : Signal.quit ∈ (r.state k).pending) :
    ∃ j, k ≤ j ∧ (r.state j).mode = .stopped := by
  obtain ⟨j, ws, s, hkj, hj, hw⟩ := r.exists_nextTurn hf (by rw [hm]; rfl)
  refine ⟨j, hkj, ?_⟩
  rw [hj, loopTurn_of_running c ws (hw.mode.trans hm), frameStep_mode_of_quit c ws (hw.pending.subset hq)]

/-- A quit pending in Starting or Running ends the loop under weak fairness (R221, R235). -/
theorem Run.quit_obeyed {c : Config} (r : Run c) (hf : weaklyFair r) {k : Nat}
    (hm : (r.state k).mode = .starting ∨ (r.state k).mode = .running)
    (hq : Signal.quit ∈ (r.state k).pending) :
    ∃ j, k ≤ j ∧ ((r.state j).mode = .stopped ∨ (r.state j).mode = .failed) := by
  rcases hm with hm | hm
  · obtain ⟨i, hki, hrun | hfail, hpend⟩ := r.starting_answered hf hm
    · obtain ⟨j, hij, hstop⟩ := r.running_stops hf hrun (hpend.subset hq)
      exact ⟨j, hki.trans hij, .inl hstop⟩
    · exact ⟨i, hki, .inr hfail⟩
  · obtain ⟨j, hkj, hstop⟩ := r.running_stops hf hm hq
    exact ⟨j, hkj, .inl hstop⟩

/-- While the bus-dispatch path takes no step, the oldest command on a port stays (R122). -/
theorem Run.head_stays {c : Config} (r : Run c) {p : Port} {t : Transaction} {k j : Nat} (hkj : k ≤ j)
    (hnone : ∀ i, k ≤ i → ¬ busSteps r i) (h : (r.waiting p k).head? = some t) :
    (r.waiting p j).head? = some t := by
  induction j, hkj using Nat.le_induction with
  | base => exact h
  | succ j hkj ih =>
    obtain ⟨l, hl⟩ := r.kept p j
    have hleft : leftWaiting p (r.event j) (r.waiting p j) = r.waiting p j := by
      cases he : r.event j with
      | command tr => exact absurd ⟨tr, he⟩ (hnone j hkj)
      | loop | memory => rfl
    rw [hl, hleft, List.head?_append, ih]
    rfl

/-- Under weak fairness the bus-dispatch path takes a step while the oldest command of a port decodes
(R256). -/
theorem Run.exists_busSteps {c : Config} (r : Run c) (hf : weaklyFair r) {k : Nat} {p : Port}
    {t : Transaction} {i : Instr} (h : (r.waiting p k).head? = some t) (hd : decode t = .ok i) :
    ∃ j, k ≤ j ∧ busSteps r j := by
  by_contra hno
  have hnone : ∀ j, k ≤ j → ¬ busSteps r j := fun j hkj hj => hno ⟨j, hkj, hj⟩
  exact hno (hf.1 k fun j hkj => ⟨p, t, i, r.head_stays hkj hnone h, hd⟩)

/-! ### The obligations -/

/-- Settles O36: `poll_eq`, and the frame step's mode and frames. -/
theorem pollAppliesEverySignalOnce : Obligations.PollAppliesEverySignalOnce :=
  ⟨poll_eq, fun c ws s hq => ⟨frameStep_mode_of_quit c ws hq, _, frameStep_presented c ws s⟩⟩

/-- Settles O38: the loop's turn lapses, and of the loop a command could write the queue only, which takes
no signal then. -/
theorem dormantLoopStaysDormant : Obligations.DormantLoopStaysDormant := by
  intro c s t hm ht
  have hoff : loopEnabled s.mode = false := loopEnabled_eq_false_iff.2 hm
  rcases stepIn_cases ht with ⟨-, hen, -⟩ | ⟨tr, i, rest, -, -, hx⟩ | ⟨ws, rest, -, rfl⟩ |
    ⟨ws, rest, -, rfl⟩
  · rw [hoff] at hen
    cases hen
  · obtain ⟨hmode, hvsync, hfull, hbuf, hpres, hlog, -⟩ := commandsLeaveTheLoopAlone c i _ t hx
    exact ⟨hmode, hpres, hvsync, hfull, execIn_pending_of_dormant (s := { s with inputs := rest }) hoff hx,
      hbuf, hlog⟩
  · rw [loopTurn_of_dormant c ws (s := { s with inputs := rest }) hoff]
    exact ⟨rfl, rfl, rfl, rfl, rfl, rfl, rfl⟩
  · exact ⟨rfl, rfl, rfl, rfl, rfl, rfl, rfl⟩

/-- Settles O41: the steps of any two display pixels commute. -/
theorem pixelOrderIsUnobservable : Obligations.PixelOrderIsUnobservable := by
  intro c rd buf order hperm
  exact hperm.foldl_eq' (fun p hp q hq b =>
    pixelStep_comm rd (hperm.mem_iff.1 hp) (hperm.mem_iff.1 hq) b) buf

/-- Settles O46, by `loopTurn_registers`. -/
theorem loopIgnoresTheRegisters : Obligations.LoopIgnoresTheRegisters :=
  fun c s ws cs rf => loopTurn_registers c ws cs rf s

/-- Settles O47, by `sameUpToToggles_stepIn`. -/
theorem togglesAffectNoValue : Obligations.TogglesAffectNoValue := by
  intro c s v f
  have hsame := sameUpToToggles_stepIn c v f s
  refine ⟨fun t ht => ?_, fun r hr => ?_, fun r hr => ?_⟩
  · rw [ht] at hsame
    exact hsame.eq_next
  · rw [hr] at hsame
    exact hsame.eq_fault
  · rw [hr] at hsame
    exact hsame.eq_refused

/-- Settles O48: the quit is queued, and the frame step of the next turn polls it. -/
theorem quitStopsAfterTheNextFrame : Obligations.QuitStopsAfterTheNextFrame := by
  intro c s ws rest hm hin
  have hquit : stepIn c s = .next (post .quit { s with inputs := .loop ws :: rest }) := by
    rw [stepIn_of_inputs c hin]
    simp only [happens, transact, show decode (.signal 0x82) = .ok .sigQuit from decode_signal .quit]
    rfl
  rw [post_eq_ite, if_pos (.inr hm)] at hquit
  have hturn := stepIn_of_running c
    (s := { s with inputs := .loop ws :: rest, pending := s.pending ++ [.quit] }) hm (.inl rfl)
  exact ⟨_, _, _, hquit, hm, rfl, hturn, frameStep_mode_of_quit c ws (by simp), frameStep_presented c ws _,
    frameStep_pending c ws _⟩

/-- Settles O51: `step` is `stepIn` at the block, and `Run.run_events`. -/
theorem machinePerformsEveryPartOfARun : Obligations.MachinePerformsEveryPartOfARun := by
  refine ⟨?_, fun c r k n rest => r.run_events k n rest⟩
  rw [Sys2Proof.core, coreIn, funext step_eq_stepIn]
  rfl

/-- Settles O52, by what fairness gives in each mode and to a waiting command. -/
theorem fairRunsMakeProgress : Obligations.FairRunsMakeProgress := by
  refine fun c r hf k => ⟨fun hm => ?_, r.running_presents hf, r.quit_obeyed hf,
    fun p t i hw hd => r.exists_busSteps hf hw hd⟩
  obtain ⟨j, hkj, hmode, -⟩ := r.starting_answered hf hm
  exact ⟨j, hkj, hmode⟩

/-- Settles O8, by `post_eq_ite`. -/
theorem signalsQueueWhileListening : Obligations.SignalsQueueWhileListening := fun s =>
  ⟨congrArg Host.Outcome.next (post_eq_ite .vsync s),
    congrArg Host.Outcome.next (post_eq_ite .fullscreen s),
    congrArg Host.Outcome.next (post_eq_ite .quit s)⟩

/-- Settles O49: no input faults, and without one the loop steps unless it is dormant. -/
theorem runOverExactlyWhenNothingCanStep : Obligations.RunOverExactlyWhenNothingCanStep := by
  intro c s r
  rw [← loopEnabled_eq_false_iff]
  cases hin : s.inputs with
  | nil =>
    rw [stepIn_of_no_inputs c hin]
    cases loopEnabled s.mode <;> simp [eq_comm]
  | cons e rest =>
    rw [stepIn_of_inputs c hin]
    simp [happens_ne_fault]

end Sys2Proof.Machine
end

section
/-! Construction: it starts the loop in Starting or leaves it Off, and establishes the invariant. -/

namespace Sys2Proof.Machine

/-- Construction leaves the loop Off exactly if display production is not enabled (R32, R281). -/
theorem init_mode_eq_off_iff (c : Config) :
    (State.init c).mode = .off ↔ c.displayEnabled = false := by
  cases h : c.displayEnabled <;> simp [h]

/-- Construction starts the loop, if at all, before its surface is acquired (R32, R281). -/
theorem init_mode_eq_off_or_starting (c : Config) :
    (State.init c).mode = .off ∨ (State.init c).mode = .starting := by
  cases h : c.displayEnabled <;> simp [h]

theorem init_mode_ne_stopped (c : Config) : (State.init c).mode ≠ .stopped := by
  rcases init_mode_eq_off_or_starting c with h | h <;> rw [h] <;> decide

theorem init_mode_ne_failed (c : Config) : (State.init c).mode ≠ .failed := by
  rcases init_mode_eq_off_or_starting c with h | h <;> rw [h] <;> decide

/-- The construction state has the invariant: the memories and outputs are empty, and the loop is
neither Stopped nor Failed. It needs nothing of the configuration. -/
theorem inv_init (c : Config) : State.Inv c (State.init c) where
  cs_wf := Memory.wf_nil
  cs_attached := by simp
  rf_wf := Memory.wf_nil
  rf_bound := by simp
  mem_wf := Memory.wf_nil
  mem_bound := by simp
  buf_length := by simp
  frame_length := by simp
  off_iff := init_mode_eq_off_iff c
  no_frame := fun _ => init_presented c
  stopped_frame := fun h => absurd h (init_mode_ne_stopped c)
  no_pending := fun _ => init_pending c
  log := by rw [if_neg (init_mode_ne_failed c), init_opLog]

/-- Settles O59, by `inv_init`; the machine's reset is construction of the block it runs (R280). -/
theorem constructionIsGood : Obligations.ConstructionIsGood :=
  ⟨fun b => inv_init b.cfg, inv_init Config.block.cfg⟩

end Sys2Proof.Machine
end
